-- ==== Sys2Proof/Word.lean ====
section
/-! DEFINITION. The widths of the block's words and registers (R7, R10, R35) and the mask primitive `ones`. -/

namespace Sys2Proof

/-- A word of a port: a command word (R51), a response word (R58). Bit 0 is the least significant (R10). -/
abbrev Word := BitVec 32

/-- The width of FC and of every element of CW, CP and DW (R7). -/
abbrev U16 := BitVec 16

/-- The width of a sample accumulator (R7, D10). -/
abbrev U32 := BitVec 32

/-- One bit per line: a sample word (R91), a drive mask (R81), the output vector (R20). The spec's masks have
N_PWM bits; the model holds them in 16, the most channels R6 allows, the others zero (log entry 12). -/
abbrev Mask := BitVec 16

/-- `ones(n)` of R10: the mask of bits n-1 .. 0. -/
def ones (n : Nat) : Mask := BitVec.ofNat 16 (2 ^ n - 1)

end Sys2Proof
end

