-- ==== Sys2Proof/Syntax.lean ====
section
/-! DEFINITION. The operations of the block (R56), the ports they arrive on (R57) and the events of a run (R12). -/

namespace Sys2Proof

/-- The five operations of the opcode map (R56), with their operands as the decoder of R60 hands them on: a channel
index is a number, SETW's value a signed number (R55), the sample word stays a mask (R91). -/
inductive Instr where
  /-- SETW ch, val: set commanded width (R72). -/
  | setw (ch : Nat) (val : Int)
  /-- GETW ch: get decoded width (R97). -/
  | getw (ch : Nat)
  /-- INIT: arm both engines (R110). -/
  | init
  /-- TICKPWM: one PWM tick (R78). -/
  | tickpwm
  /-- TICKPPM s: one PPM tick with the sample word s (R92). -/
  | tickppm (s : Mask)
  deriving DecidableEq, Repr

/-- The mnemonics of the opcode map (R56). -/
inductive Mnemonic where
  | setw | getw | init | tickpwm | tickppm
  deriving DecidableEq, Repr

/-- The mnemonic of an operation. -/
def Instr.mnemonic : Instr → Mnemonic
  | .setw _ _ => .setw
  | .getw _ => .getw
  | .init => .init
  | .tickpwm => .tickpwm
  | .tickppm _ => .tickppm

/-- The three input ports that carry words (R3, R57). -/
inductive Port where
  /-- the host command port -/
  | host
  /-- the PWM tick strobe -/
  | pwm
  /-- the PPM tick strobe -/
  | ppm
  deriving DecidableEq, Repr

/-- An event of a run (R12): a word on one of the ports, or Reset. A strobe event carries its word, so that a word
the hardware cannot produce can be handed to the model and refused (R63). -/
inductive Event where
  /-- `Host(w)`: a command word on the host command port. -/
  | host (w : Word)
  /-- A word as a PWM strobe event: `PwmTick` is the word 0x40000000 (R63). -/
  | pwmStrobe (w : Word)
  /-- A word as a PPM strobe event: `PpmTick(s)` is the word 0x50000000 | s (R63). -/
  | ppmStrobe (w : Word)
  /-- `Reset` (R128). -/
  | reset
  deriving DecidableEq, Repr

/-- A word put on a port, as an event. -/
def Event.onPort (p : Port) (w : Word) : Event :=
  match p with
  | .host => .host w
  | .pwm => .pwmStrobe w
  | .ppm => .ppmStrobe w

end Sys2Proof
end

