-- ==== Sys2Proof/WellFormed.lean ====
section
/-! DEFINITION. Which operations can be spelled as a command word: the operand ranges of R65. -/

namespace Sys2Proof

/-- The operand ranges of R65: ch in 0 .. 255, val in -32768 .. 32767. An operand outside its range is an assembly
error and produces no word. The sample word is 16 bits by its type. -/
def Instr.wf (i : Instr) : Bool :=
  match i with
  | .setw ch val => decide (ch ≤ 255) && decide (-32768 ≤ val) && decide (val ≤ 32767)
  | .getw ch => decide (ch ≤ 255)
  | .init => true
  | .tickpwm => true
  | .tickppm _ => true

end Sys2Proof
end

