-- ==== Sys2Proof/Decode.lean ====
section
/-! DEFINITION. The command word (R51 to R57), the decoder of each port (R60 to R63), and after it the encoder (R65).
Each decoder is total: it answers every 32-bit word with an operation or a rejection by name. -/

namespace Sys2Proof

/-- OP = w[31:28] (R52). -/
def opField (w : Word) : BitVec 4 := w.extractLsb' 28 4

/-- RSV = w[27:24] (R53). -/
def rsvField (w : Word) : BitVec 4 := w.extractLsb' 24 4

/-- CH = w[23:16] (R54). -/
def chField (w : Word) : BitVec 8 := w.extractLsb' 16 8

/-- VAL = w[15:0] (R55). -/
def valField (w : Word) : BitVec 16 := w.extractLsb' 0 16

/-- Why a word is no operation on the port it arrived on. -/
inductive DecodeReject where
  /-- Host port: OP is 0x0 or 0x6 .. 0xF (R61). -/
  | reservedOp
  /-- Host port: OP is 0x4 or 0x5, a tick (R57). -/
  | tickOpOnHostPort
  /-- Host port: RSV is not 0 (R53). -/
  | rsvNonzero
  /-- Host port: GETW with VAL not 0 (R62). -/
  | getwValNonzero
  /-- Host port: INIT with CH or VAL not 0 (R62). -/
  | initFieldNonzero
  /-- PWM strobe: any word but 0x40000000 (R63). -/
  | malformedPwmStrobe
  /-- PPM strobe: any word not of the form 0x50000000 | s (R63). -/
  | malformedPpmStrobe
  deriving DecidableEq, Repr

/-- What a decoder answers. -/
inductive Decoded where
  | op (i : Instr)
  | rejected (why : DecodeReject)
  deriving DecidableEq, Repr

/-- `decode_host` of R60, its checks in the rule's order: OP, RSV, then the must-be-zero fields of the operation. -/
def decodeHost (w : Word) : Decoded :=
  if opField w = 0x4#4 ∨ opField w = 0x5#4 then .rejected .tickOpOnHostPort
  else if opField w ≠ 0x1#4 ∧ opField w ≠ 0x2#4 ∧ opField w ≠ 0x3#4 then .rejected .reservedOp
  else if rsvField w ≠ 0#4 then .rejected .rsvNonzero
  else if opField w = 0x1#4 then .op (.setw (chField w).toNat (valField w).toInt)
  else if opField w = 0x2#4 then
    if valField w ≠ 0#16 then .rejected .getwValNonzero
    else .op (.getw (chField w).toNat)
  else if chField w ≠ 0#8 ∨ valField w ≠ 0#16 then .rejected .initFieldNonzero
  else .op .init

/-- The PWM tick strobe produces exactly 0x40000000 (R63). -/
def decodePwm (w : Word) : Decoded :=
  if w = 0x40000000#32 then .op .tickpwm else .rejected .malformedPwmStrobe

/-- The PPM tick strobe produces 0x50000000 | s, s the sample word (R63). -/
def decodePpm (w : Word) : Decoded :=
  if opField w = 0x5#4 ∧ rsvField w = 0#4 ∧ chField w = 0#8 then .op (.tickppm (valField w))
  else .rejected .malformedPpmStrobe

/-- The decoder of a port. -/
def decodeOn (p : Port) (w : Word) : Decoded :=
  match p with
  | .host => decodeHost w
  | .pwm => decodePwm w
  | .ppm => decodePpm w

/-- What an event asks of the block. -/
inductive Request where
  /-- an operation on its own port -/
  | op (i : Instr)
  /-- a host word that is no legal host command (R115) -/
  | illegalCommand (why : DecodeReject)
  /-- a strobe event that does not exist in the hardware (R63) -/
  | malformedStrobe (why : DecodeReject)
  /-- Reset (R128) -/
  | reset
  deriving DecidableEq, Repr

/-- What an event asks: its word decoded by its port's decoder. -/
def decodeEvent (e : Event) : Request :=
  match e with
  | .host w =>
    match decodeHost w with
    | .op i => .op i
    | .rejected why => .illegalCommand why
  | .pwmStrobe w =>
    match decodePwm w with
    | .op i => .op i
    | .rejected why => .malformedStrobe why
  | .ppmStrobe w =>
    match decodePpm w with
    | .op i => .op i
    | .rejected why => .malformedStrobe why
  | .reset => .reset

/-- The port that R57 gives a word's OP: the strobes for the tick OPs, the host port for every other. -/
def portOfWord (w : Word) : Port :=
  if opField w = 0x4#4 then .pwm else if opField w = 0x5#4 then .ppm else .host

/-- A word as the event of the port R57 gives its OP. -/
def eventOfWord (w : Word) : Event := Event.onPort (portOfWord w) w

/-- The operation whose row of the opcode map (R56) a word matches, if any: its decoding on the port R57 gives it. -/
def decodeWord (w : Word) : Option Instr :=
  match decodeOn (portOfWord w) w with
  | .op i => some i
  | .rejected _ => none

/-- The instruction the decoder reads from the bits `w` of a table row, every bit above `nbits` zero. A command word
is one whole 32-bit word (R35, R64): no byte order applies. -/
def decodeTableWord (nbits w : Nat) : Option Instr := decodeWord (BitVec.ofNat 32 (w % 2 ^ nbits))

/-- The four bytes of a word in the order a byte-serial link sends them: the least significant first (R35, D18). -/
def linkBytes (w : Word) : List (BitVec 8) :=
  [w.extractLsb' 0 8, w.extractLsb' 8 8, w.extractLsb' 16 8, w.extractLsb' 24 8]

/-- The word that four bytes of a byte-serial link stand for (R35); none for any other number of bytes. -/
def wordOfLinkBytes (bs : List (BitVec 8)) : Option Word :=
  match bs with
  | [b0, b1, b2, b3] => some (b3 ++ b2 ++ b1 ++ b0)
  | _ => none

/-- The command word with the given fields (R51). -/
def commandWord (op : BitVec 4) (ch : BitVec 8) (val : BitVec 16) : Word := op ++ 0#4 ++ ch ++ val

/-- The encoding of an operation (the table of R65). Meant for a well-formed operation; `assemble` checks that. -/
def encode (i : Instr) : Word :=
  match i with
  | .setw ch val => commandWord 0x1#4 (BitVec.ofNat 8 ch) (BitVec.ofInt 16 val)
  | .getw ch => commandWord 0x2#4 (BitVec.ofNat 8 ch) 0#16
  | .init => commandWord 0x3#4 0#8 0#16
  | .tickpwm => commandWord 0x4#4 0#8 0#16
  | .tickppm s => commandWord 0x5#4 0#8 s

/-- R65: the word of an operation, or none where an operand is out of its range (an assembly error). -/
def assemble (i : Instr) : Option Word := if i.wf then some (encode i) else none

/-- The port an operation arrives on (R57). -/
def portOf (i : Instr) : Port :=
  match i with
  | .setw _ _ => .host
  | .getw _ => .host
  | .init => .host
  | .tickpwm => .pwm
  | .tickppm _ => .ppm

/-- The event by which an operation arrives: its word on its port (R57). -/
def eventOf (i : Instr) : Event := Event.onPort (portOf i) (encode i)

/-- A row of the opcode map (R56). -/
structure OpcodeRow where
  port : Port
  matchBits : Word
  mask : Word
  deriving DecidableEq, Repr

/-- The opcode map of R56. -/
def opcodeRow (m : Mnemonic) : OpcodeRow :=
  match m with
  | .setw => { port := .host, matchBits := 0x10000000#32, mask := 0xFF000000#32 }
  | .getw => { port := .host, matchBits := 0x20000000#32, mask := 0xFF00FFFF#32 }
  | .init => { port := .host, matchBits := 0x30000000#32, mask := 0xFFFFFFFF#32 }
  | .tickpwm => { port := .pwm, matchBits := 0x40000000#32, mask := 0xFFFFFFFF#32 }
  | .tickppm => { port := .ppm, matchBits := 0x50000000#32, mask := 0xFFFF0000#32 }

/-- A word is the operation of a row when `(w & mask) = match` (R56). -/
abbrev OpcodeRow.matches (r : OpcodeRow) (w : Word) : Prop := w &&& r.mask = r.matchBits

end Sys2Proof
end

