-- ==== Sys2Proof/Config.lean ====
section
/-! DEFINITION. The parameters of a model instance (R6), the reference configuration,
and the open parameters OUT_INIT and PIN_MAP (92_eei_decisions.md). -/

namespace Sys2Proof

/-- The configuration parameters of R6, with the optional switch of D4. They are arguments of the model and not
state of the block: no event writes them (R24). -/
structure Config where
  /-- N_PWM, the number of PWM output channels. -/
  nPwm : Nat
  /-- N_PPM, the number of PPM input channels. -/
  nPpm : Nat
  /-- F, the frame length in PWM ticks. -/
  f : Nat
  /-- OFFSET, the PPM calibration offset in PPM ticks. -/
  offset : Nat
  /-- DW_MAX, the maximum decoded width. -/
  dwMax : Nat
  /-- TICK_US, the tick period in microseconds: informative, read by no rule (R8). A rational number here (log entry 9). -/
  tickUs : Rat
  /-- LITERAL_DECREMENT, the non-normative switch of D4, off by default: with it on, a line's level is tested after
  the decrement, the reading that 90_conflicts.md C1 rejects (log entry 11). -/
  literalDecrement : Bool := false
  deriving DecidableEq, Repr

/-- ACC_MAX, the saturation value of a sample accumulator: fixed at 2^32 - 1 (R6, D10). -/
def Config.accMax : Nat := 4294967295

/-- The reference configuration of R6 and D27. -/
def Config.reference : Config :=
  { nPwm := 4, nPpm := 8, f := 1000, offset := 100, dwMax := 65535, tickUs := 20, literalDecrement := false }

/-- OUT_INIT (R20, D15): the levels of the output lines from the k-th Reset to the first armed PWM tick after it.
A FREE VALUE under no law: it has no body, and nothing can be proved of it. Masked to N_PWM bits where it is used. -/
opaque Config.outInit : Nat → Mask

/-- A line of the block towards the GPIO bank (R126). -/
inductive Line where
  /-- PWM output line c. -/
  | pwm (c : Nat)
  /-- PPM input line c. -/
  | ppm (c : Nat)
  deriving DecidableEq, Repr

/-- PIN_MAP (D30): the platform pin that carries a line. OPEN, and read by no rule. -/
opaque Config.pinMap : Line → Nat

/-- R144, informative: a PWM width of w ticks in microseconds. -/
def Config.widthMicros (c : Config) (w : Nat) : Rat := w * c.tickUs

/-- R144, informative: a PWM frame in microseconds. -/
def Config.frameMicros (c : Config) : Rat := c.f * c.tickUs

/-- R144, informative: the high time, in microseconds, of the pulse that a decoded width k stands for. -/
def Config.pulseMicros (c : Config) (k : Nat) : Rat := (c.offset + k : Nat) * c.tickUs

end Sys2Proof
end

