-- ==== Sys2Proof/Machine/State.lean ====
section
/-! DEFINITION. The state of the block (R13), the model's own fields beside it, the reasons to stop, and reset (R29). -/

namespace Sys2Proof.Machine

/-- The block's state: "exactly the following, and nothing else" (R13, S0 to S6). The arrays list channel 0 first;
CW and CP have N_PWM elements, ACC and DW have N_PPM (R32). -/
structure Block where
  /-- S0, CTRL: bit 0 PWM_ARMED, bit 1 PPM_ARMED (R23). -/
  ctrl : BitVec 2
  /-- S1, FC: the frame countdown shared by all PWM channels (R18, R19). -/
  fc : U16
  /-- S2, OUT: bit c is the level last driven on PWM output line c (R20). -/
  out : Mask
  /-- S3, CW: the commanded widths (R16). -/
  cw : List U16
  /-- S4, CP: the channel periods (R17). -/
  cp : List U16
  /-- S5, ACC: the sample accumulators (R21). -/
  acc : List U32
  /-- S6, DW: the decoded widths (R22). -/
  dw : List U16
  deriving DecidableEq, Repr

/-- The two masks that `drive` hands to the output GPIO capability in one update (R11, R81). -/
structure Drive where
  /-- the lines set high -/
  setMask : Mask
  /-- the lines set low -/
  clearMask : Mask
  deriving DecidableEq, Repr

/-- The machine: the block's state, and beside it the model's own fields, none of them state of the block
(log entries 1, 3, 4, 5). -/
structure State where
  /-- The parameters of this instance (R6): no event writes them (R24). -/
  cfg : Config
  /-- The block's state (R13). -/
  block : Block
  /-- SCHEDULE: the events still to come, the next one first (R12, R40, D16). -/
  schedule : List Event
  /-- The word on the host response port in the event just run, if it answered (R12, R58). -/
  response : Option Word
  /-- What the event just run handed to the GPIO capability, if it drove (R12, R81). -/
  drive : Option Drive
  /-- How many OUT_INIT draws have been taken: the Reset event takes the next (R20, R128). -/
  draws : Nat
  deriving DecidableEq, Repr

/-- The block raises no trap or fault (R113, R118): there is nothing to name. -/
inductive Fault where
  deriving DecidableEq, Repr

/-- Why a step is refused. -/
inductive Refusal where
  /-- An arm of `exec` without a meaning: raised by no arm of this model. Safe. -/
  | notModelled (mnemonic : String)
  /-- Raised by `step` on a strobe event whose word its strobe cannot produce: no such event exists in the hardware,
  and R63 has the model refuse it. Safe. -/
  | malformedStrobe
  /-- Raised by `step` in a configuration outside the legal ranges, which R9 has the model refuse. Safe. -/
  | illegalConfiguration
  deriving DecidableEq, Repr

/-- The outcome of a step or of a meaning. -/
abbrev Result := Host.Outcome State Fault Refusal

/-- The reset values of R29: everything 0, OUT the draw OUT_INIT cut to N_PWM bits. -/
def resetBlock (c : Config) (outInit : Mask) : Block :=
  { ctrl := 0#2
    fc := 0#16
    out := outInit &&& ones c.nPwm
    cw := List.replicate c.nPwm 0#16
    cp := List.replicate c.nPwm 0#16
    acc := List.replicate c.nPpm 0#32
    dw := List.replicate c.nPpm 0#16 }

/-- An instance with the configuration `c`, right after its first Reset (R128), with no event scheduled. -/
def State.resetWith (c : Config) : State :=
  { cfg := c
    block := resetBlock c (Config.outInit 0)
    schedule := []
    response := none
    drive := none
    draws := 1 }

/-- The machine right after reset, in the reference configuration (R6, R29, R128). -/
def State.reset : State := State.resetWith Config.reference

end Sys2Proof.Machine
end

