-- ==== Sys2Proof/Machine/Flags.lean ====
section
/-! DEFINITION. The single-bit state (R25: the block has no condition codes): the two fields of CTRL (R23) and the
bits of OUT (R20). Also the view of an accumulator as the PPM channel's state machine (R27). -/

namespace Sys2Proof.Machine

/-- CTRL.PWM_ARMED, bit 0 of CTRL (R23). -/
def Block.pwmArmed (b : Block) : Bool := b.ctrl.getLsbD 0

/-- CTRL.PPM_ARMED, bit 1 of CTRL (R23). -/
def Block.ppmArmed (b : Block) : Bool := b.ctrl.getLsbD 1

/-- CTRL with both armed bits set (R110). -/
def armBoth (ctrl : BitVec 2) : BitVec 2 := ctrl ||| 0b11#2

/-- OUT[c], the level last driven on PWM output line c (R20). -/
def Block.outBit (b : Block) (c : Nat) : Bool := b.out.getLsbD c

/-- The states of the source's per-channel PPM state machine (R27). -/
inductive PpmPhase where
  /-- Idle/Low -/
  | idleLow
  /-- Accumulating -/
  | accumulating
  deriving DecidableEq, Repr

/-- A channel is Idle/Low when ACC[c] = 0 and Accumulating when ACC[c] > 0 (R27). -/
def ppmPhase (acc : U32) : PpmPhase := if acc = 0#32 then .idleLow else .accumulating

end Sys2Proof.Machine
end

