-- ==== Sys2Proof/Machine/Operands.lean ====
section
/-! DEFINITION. The legal configurations (R9), and what the operations compute from their operands: the channel checks, the width clamp, and the rules
of one PWM channel and of one PPM channel in a tick. -/

namespace Sys2Proof

/-- The legal ranges of R6. A configuration outside them is refused (R9). -/
abbrev Config.legal (c : Config) : Prop :=
  (1 ≤ c.nPwm ∧ c.nPwm ≤ 16) ∧ (1 ≤ c.nPpm ∧ c.nPpm ≤ 16) ∧ (1 ≤ c.f ∧ c.f ≤ 32768) ∧
  c.offset ≤ 4294967294 ∧ (1 ≤ c.dwMax ∧ c.dwMax ≤ 65535) ∧ 0 < c.tickUs

end Sys2Proof

namespace Sys2Proof.Machine

/-- A PWM channel index is valid when ch < N_PWM (R70). -/
def validPwm (c : Config) (ch : Nat) : Bool := decide (ch < c.nPwm)

/-- A PPM channel index is valid when ch < N_PPM (R90). -/
def validPpm (c : Config) (ch : Nat) : Bool := decide (ch < c.nPpm)

/-- `clamp(v, lo, hi)` of R10. -/
def clamp (v lo hi : Int) : Int := if v < lo then lo else if hi < v then hi else v

/-- `clampw(v) = clamp(v, 0, F - 1)` (R71), as the u16 that SETW stores. -/
def clampw (c : Config) (v : Int) : U16 := BitVec.ofInt 16 (clamp v 0 ((c.f : Int) - 1))

/-- F - 1, what a boundary tick sets FC to (R19, R78). -/
def frameReload (c : Config) : U16 := BitVec.ofNat 16 (c.f - 1)

/-- The period of a channel after a non-boundary tick: one less when it is nonzero (R78). -/
def nextPeriod (cp : U16) : U16 := if cp = 0#16 then 0#16 else cp - 1#16

/-- The level a non-boundary tick drives: high when the period is nonzero at the start of the tick (R77, C1). With
LITERAL_DECREMENT on: high when the period is nonzero after the decrement (D4). -/
def channelHigh (c : Config) (cp : U16) : Bool :=
  if c.literalDecrement then nextPeriod cp != 0#16 else cp != 0#16

/-- The mask whose bit c is the c-th level of the list. -/
def maskOf (levels : List Bool) : Mask :=
  match levels with
  | [] => 0#16
  | l :: ls => (maskOf ls <<< 1) ||| (if l then 1#16 else 0#16)

/-- Bit c of the sample word: the level of PPM input line c (R91). -/
def sampleBit (s : Mask) (c : Nat) : Bool := s.getLsbD c

/-- The accumulator of a channel after an armed PPM tick: a high sample counts up to ACC_MAX (R93), a low sample
clears it (R92). -/
def nextAcc (high : Bool) (acc : U32) : U32 :=
  if high then BitVec.ofNat 32 (min (acc.toNat + 1) Config.accMax) else 0#32

/-- A low sample with ACC[c] > OFFSET ends a plausible pulse (R94). -/
def pulseEnds (c : Config) (high : Bool) (acc : U32) : Bool := !high && decide (c.offset < acc.toNat)

/-- The decoded width of a channel after an armed PPM tick: `min(ACC[c] - OFFSET, DW_MAX)` where a plausible pulse
ended, unchanged otherwise (R92, R95). -/
def nextDw (c : Config) (high : Bool) (acc : U32) (dw : U16) : U16 :=
  if pulseEnds c high acc then BitVec.ofNat 16 (min (acc.toNat - c.offset) c.dwMax) else dw

end Sys2Proof.Machine
end

