-- ==== Sys2Proof/Machine/Ops.lean ====
section
/-! DEFINITION. The shared operations: the response word (R58, R59), the end of an event, `respond`, `raise` and
`drive` (R11), the accesses to the register file (R33, R34), and the Reset event (R128). There is no trap to take and
none to return from (R118, R119): an error of a host command is `raise`. -/

namespace Sys2Proof.Machine

/-- The status codes that are produced (R59). -/
inductive Status where
  | ok
  | invalidChannel
  | illegalCommand
  deriving DecidableEq, Repr

/-- The value of a status code (R59). -/
def Status.code (st : Status) : BitVec 4 :=
  match st with
  | .ok => 0x0#4
  | .invalidChannel => 0x1#4
  | .illegalCommand => 0x2#4

/-- The response word: STATUS[31:28], zero[27:16], DATA[15:0] (R58). -/
def responseWord (st : Status) (data : U16) : Word := st.code ++ 0#12 ++ data

/-- The end of an event: the block's new state, the event taken from the schedule, and its outputs put on the ports
(R12, R40). Every event ends here, so a port shows the output of the event just run and nothing older. -/
def complete (s : State) (b : Block) (response : Option Word) (drive : Option Drive) : State :=
  { s with block := b, schedule := s.schedule.tail, response := response, drive := drive }

/-- A host command that is performed: `respond(OK, data)` (R11). -/
def respondOk (s : State) (b : Block) (data : U16) : State :=
  complete s b (some (responseWord .ok data)) none

/-- `raise <Status>()` (R11): all state as before the command, and the response `(Status, 0)`. -/
def raise (s : State) (st : Status) : State :=
  complete s s.block (some (responseWord st 0#16)) none

/-- An event with no output: no response, no drive. -/
def silent (s : State) (b : Block) : State := complete s b none none

/-- The masks of a drive of the levels `out`: set = OUT', clear = ~OUT' & ones(N_PWM) (R78, R81). -/
def driveMasks (c : Config) (out : Mask) : Drive :=
  { setMask := out, clearMask := ~~~out &&& ones c.nPwm }

/-- An event that ends in `drive` (R81). -/
def driveOut (s : State) (b : Block) : State :=
  complete s b none (some (driveMasks s.cfg b.out))

/-- What the GPIO capability does with a drive: lines in the set mask high, lines in the clear mask low, all in one
update (R11, R81, R126). -/
def Drive.apply (d : Drive) (lines : Mask) : Mask := (lines &&& ~~~d.clearMask) ||| d.setMask

/-- The write of CW[ch] (R72). -/
def Block.writeCw (b : Block) (ch : Nat) (v : U16) : Block := { b with cw := b.cw.set ch v }

/-- The read of DW[ch] (R97). In a state with fewer than N_PPM elements, which no run reaches, a missing element
reads 0 (log entry 13). -/
def Block.readDw (b : Block) (ch : Nat) : U16 := b.dw.getD ch 0#16

/-- The Reset event (R128, R130): every element to its reset value, OUT to the next draw; no response, no drive. -/
def resetEvent (s : State) : State :=
  { silent s (resetBlock s.cfg (Config.outInit s.draws)) with draws := s.draws + 1 }

/-- A host word that is no legal host command (R60, R115): no state change, the answer `(ILLEGAL_COMMAND, 0)`. -/
def illegalCommand (s : State) : State := raise s .illegalCommand

/-- A step with no event to run: the block waits (R129) and its ports show no output (log entry 2). -/
def idle (s : State) : State := silent s s.block

end Sys2Proof.Machine
end

