-- ==== Sys2Proof/Machine/Control.lean ====
section
/-! DEFINITION. Control (42_control.md): INIT. -/

namespace Sys2Proof.Machine

/-- INIT (R110): both engines armed in one event, nothing else changed (R108), the answer OK. -/
def execInit (s : State) : Result :=
  .next (respondOk s { s.block with ctrl := armBoth s.block.ctrl } 0#16)

end Sys2Proof.Machine
end

