-- ==== Sys2Proof/Machine/Ppm.lean ====
section
/-! DEFINITION. The PPM input engine (41_ppm.md): TICKPPM and GETW. -/

namespace Sys2Proof.Machine

/-- One armed PPM tick with the sample word `smp` (R92): every channel by its own sample, its accumulator and its
decoded width read as they were before the tick (R11). -/
def ppmTick (c : Config) (smp : Mask) (b : Block) : Block :=
  { b with
    acc := b.acc.mapIdx fun ch a => nextAcc (sampleBit smp ch) a
    dw := b.dw.mapIdx fun ch d => nextDw c (sampleBit smp ch) (b.acc.getD ch 0#32) d }

/-- TICKPPM (R92): nothing while the engine is unarmed (R96); otherwise one tick. A tick answers nothing. -/
def execTickppm (smp : Mask) (s : State) : Result :=
  if s.block.ppmArmed then .next (silent s (ppmTick s.cfg smp s.block))
  else .next (silent s s.block)

/-- GETW (R97, R98): an invalid channel is reported with data 0; a valid one answers DW[ch] as it stands. -/
def execGetw (ch : Nat) (s : State) : Result :=
  if validPpm s.cfg ch then .next (respondOk s s.block (s.block.readDw ch))
  else .next (raise s .invalidChannel)

end Sys2Proof.Machine
end

