-- ==== Sys2Proof/Machine/Pwm.lean ====
section
/-! DEFINITION. The PWM output engine (40_pwm.md): SETW and TICKPWM. -/

namespace Sys2Proof.Machine

/-- SETW (R72): an invalid channel is reported and changes nothing (R70, R73); a valid one stores the clamped width,
whether or not the engine is armed. -/
def execSetw (ch : Nat) (val : Int) (s : State) : Result :=
  if validPwm s.cfg ch then .next (respondOk s (s.block.writeCw ch (clampw s.cfg val)) 0#16)
  else .next (raise s .invalidChannel)

/-- The boundary tick (R78, R79): periods reloaded from the commanded widths, every line low, the frame re-armed. -/
def pwmBoundary (c : Config) (b : Block) : Block :=
  { b with cp := b.cw, out := 0#16, fc := frameReload c }

/-- The non-boundary tick (R77, R78): FC counts down; each line is driven by its period, which counts down. -/
def pwmCount (c : Config) (b : Block) : Block :=
  { b with fc := b.fc - 1#16, out := maskOf (b.cp.map (channelHigh c)), cp := b.cp.map nextPeriod }

/-- One armed PWM tick (R74, R76): a boundary tick when FC = 0 at its start. -/
def pwmTick (c : Config) (b : Block) : Block :=
  if b.fc = 0#16 then pwmBoundary c b else pwmCount c b

/-- TICKPWM (R78): nothing while the engine is unarmed (R75); otherwise one tick, and a drive of all lines (R81). -/
def execTickpwm (s : State) : Result :=
  if s.block.pwmArmed then .next (driveOut s (pwmTick s.cfg s.block))
  else .next (silent s s.block)

end Sys2Proof.Machine
end

