-- ==== Sys2Proof/Machine/Dispatch.lean ====
section
/-! DEFINITION. One arm per operation of the opcode map (R56). -/

namespace Sys2Proof.Machine

def exec (i : Instr) (s : State) : Host.Outcome State Fault Refusal :=
  match i with
  | .setw ch val => Sys2Proof.Machine.execSetw ch val s
  | .getw ch => Sys2Proof.Machine.execGetw ch s
  | .init => Sys2Proof.Machine.execInit s
  | .tickpwm => Sys2Proof.Machine.execTickpwm s
  | .tickppm smp => Sys2Proof.Machine.execTickppm smp s

end Sys2Proof.Machine
end

