-- ==== Sys2Proof/Machine/Events.lean ====
section
/-! DEFINITION. What each request of an event does (R12): an operation, an illegal command, a strobe event that does
not exist, Reset. -/

namespace Sys2Proof.Machine

/-- A request run at `s`: every one is an atomic transition (R40) but a malformed strobe event, which is refused
(R63). -/
def runRequest (r : Request) (s : State) : Result :=
  match r with
  | .op i => exec i s
  | .illegalCommand _ => .next (illegalCommand s)
  | .malformedStrobe _ => .refused .malformedStrobe
  | .reset => .next (resetEvent s)

end Sys2Proof.Machine
end

