-- ==== Sys2Proof/Machine/Step.lean ====
section
/-! DEFINITION. One step of the block: the next event of the schedule, decoded by its port and run (R12, R40). -/

namespace Sys2Proof.Machine

/-- One step: a configuration outside R6 is refused (R9); with no event scheduled the block waits (R129); otherwise
the next event is run, as one atomic transition (R40). -/
def step (s : State) : Host.Outcome State Fault Refusal :=
  if s.cfg.legal then
    match s.schedule with
    | [] => .next (idle s)
    | e :: _ => runRequest (decodeEvent e) s
  else .refused .illegalConfiguration

/-- `s` with the instruction of a table row as its next event, on the port R57 gives its OP, before the events that
were scheduled. The bits of the word above `nbits` are zero. -/
def State.withFetchWord (s : State) (nbits w : Nat) : State :=
  { s with schedule := eventOfWord (BitVec.ofNat 32 (w % 2 ^ nbits)) :: s.schedule }

end Sys2Proof.Machine
end

