-- ==== Sys2Proof/Machine/Listing.lean ====
section
/-! DEFINITION. The listing syntax (R65, R66) and the disassembly (R68): a line of text to the events it stands for,
and a word back to its text. A platform's tool, not part of the block: `step` does not use it. Text is a list of
characters. What R65 leaves open of the text (blanks, letter case of hexadecimal digits) is in log entry 14. -/

namespace Sys2Proof.Machine

/-- What a listing line spells: an operation, or `.word w`. -/
inductive Source where
  | op (i : Instr)
  | word (w : Nat)
  deriving DecidableEq, Repr

/-- A listing line: its port prefix if it has one (R65), its REP count (1 without REP, R66), and what it repeats. -/
structure ListingLine where
  onPort : Option Port
  count : Nat
  source : Source
  deriving DecidableEq, Repr

/-- The word a line spells; none for an operand outside its range, an assembly error that produces no word (R65). -/
def Source.wordOf (src : Source) : Option Word :=
  match src with
  | .op i => assemble i
  | .word w => if w < 4294967296 then some (BitVec.ofNat 32 w) else none

/-- The port of a line without a prefix: the mnemonic's (R57), and the host port for `.word` (R65). -/
def Source.defaultPort (src : Source) : Port :=
  match src with
  | .op i => portOf i
  | .word _ => .host

/-- The events of a line: n consecutive copies of its word on its port, n at least 1 (R66). -/
def ListingLine.events (l : ListingLine) : Option (List Event) :=
  if l.count = 0 then none
  else l.source.wordOf.map fun w =>
    List.replicate l.count (Event.onPort (l.onPort.getD l.source.defaultPort) w)

/-- A token of a line: a comma, or a run of other characters (a run that ends in a colon is a port prefix). -/
inductive Token where
  | comma
  | word (cs : List Char)
  deriving DecidableEq, Repr

/-- The token of the characters read so far, kept in reverse. -/
def flushToken (cur : List Char) : List Token :=
  match cur with
  | [] => []
  | ch :: rest => [.word (ch :: rest).reverse]

/-- The tokens of a line; a comment runs from `;` to the end of the line (R65). -/
def tokens (cur : List Char) (text : List Char) : List Token :=
  match text with
  | [] => flushToken cur
  | ch :: rest =>
    if ch = ';' then flushToken cur
    else if ch = ',' then flushToken cur ++ Token.comma :: tokens [] rest
    else if ch = ' ' ∨ ch = '\t' then flushToken cur ++ tokens [] rest
    else if ch = ':' then flushToken (ch :: cur) ++ tokens [] rest
    else tokens (ch :: cur) rest

/-- The value of a digit character: decimal, or hexadecimal in either case. -/
def digitValue (ch : Char) : Option Nat :=
  if 48 ≤ ch.toNat ∧ ch.toNat ≤ 57 then some (ch.toNat - 48)
  else if 65 ≤ ch.toNat ∧ ch.toNat ≤ 70 then some (ch.toNat - 55)
  else if 97 ≤ ch.toNat ∧ ch.toNat ≤ 102 then some (ch.toNat - 87)
  else none

/-- The number that digits in a base spell, after `acc`. -/
def readDigits (base acc : Nat) (cs : List Char) : Option Nat :=
  match cs with
  | [] => some acc
  | ch :: rest =>
    match digitValue ch with
    | some d => if d < base then readDigits base (acc * base + d) rest else none
    | none => none

/-- At least one digit. -/
def readNumber (base : Nat) (cs : List Char) : Option Nat :=
  if cs = [] then none else readDigits base 0 cs

/-- R65: integers are decimal, with an optional leading `-`, or hexadecimal with `0x`. -/
def readInteger (cs : List Char) : Option Int :=
  match cs with
  | '-' :: ds => (readNumber 10 ds).map fun n => -(n : Int)
  | '0' :: 'x' :: hs => (readNumber 16 hs).map fun n => (n : Int)
  | ds => (readNumber 10 ds).map fun n => (n : Int)

/-- An integer that must not be negative. -/
def readNatural (cs : List Char) : Option Nat :=
  match readInteger cs with
  | some v => if 0 ≤ v then some v.toNat else none
  | none => none

/-- The sample operand of TICKPPM, in 0 .. 0xFFFF (R65). -/
def readSample (cs : List Char) : Option Mask :=
  match readNatural cs with
  | some n => if n < 65536 then some (BitVec.ofNat 16 n) else none
  | none => none

/-- The keywords of R65 and R66. -/
def kwSetw : List Char := ['S', 'E', 'T', 'W']
def kwGetw : List Char := ['G', 'E', 'T', 'W']
def kwInit : List Char := ['I', 'N', 'I', 'T']
def kwTickpwm : List Char := ['T', 'I', 'C', 'K', 'P', 'W', 'M']
def kwTickppm : List Char := ['T', 'I', 'C', 'K', 'P', 'P', 'M']
def kwWord : List Char := ['.', 'w', 'o', 'r', 'd']
def kwRep : List Char := ['R', 'E', 'P']
def kwHost : List Char := ['h', 'o', 's', 't', ':']
def kwPwm : List Char := ['p', 'w', 'm', ':']
def kwPpm : List Char := ['p', 'p', 'm', ':']

/-- One operation of the table of R65. -/
def parseSource (ts : List Token) : Option Source :=
  match ts with
  | [.word m] =>
    if m = kwInit then some (.op .init) else if m = kwTickpwm then some (.op .tickpwm) else none
  | [.word m, .word a] =>
    if m = kwGetw then (readNatural a).map fun ch => .op (.getw ch)
    else if m = kwTickppm then (readSample a).map fun s => .op (.tickppm s)
    else if m = kwWord then (readNatural a).map fun w => .word w
    else none
  | [.word m, .word a, .comma, .word b] =>
    if m = kwSetw then
      match readNatural a, readInteger b with
      | some ch, some val => some (.op (.setw ch val))
      | _, _ => none
    else none
  | _ => none

/-- `REP n, <op>` or `<op>` (R66). -/
def parseRepeat (ts : List Token) : Option (Nat × Source) :=
  match ts with
  | .word m :: .word n :: .comma :: rest =>
    if m = kwRep then
      match readNatural n, parseSource rest with
      | some k, some src => some (k, src)
      | _, _ => none
    else (parseSource ts).map fun src => (1, src)
  | _ => (parseSource ts).map fun src => (1, src)

/-- The port a prefix names (R65). -/
def portPrefix (cs : List Char) : Option Port :=
  if cs = kwHost then some .host else if cs = kwPwm then some .pwm else if cs = kwPpm then some .ppm else none

/-- A line's tokens: an optional port prefix, then the operation. -/
def parseTokens (ts : List Token) : Option ListingLine :=
  match ts with
  | .word p :: rest =>
    match portPrefix p with
    | some port => (parseRepeat rest).map fun r => { onPort := some port, count := r.1, source := r.2 }
    | none => (parseRepeat ts).map fun r => { onPort := none, count := r.1, source := r.2 }
  | _ => none

/-- The line that a text spells; none where the text is no line of R65. -/
def parseLine (text : List Char) : Option ListingLine := parseTokens (tokens [] text)

/-- The events of a text line; a line with nothing but a comment has none; `none` is an assembly error. -/
def assembleLine (text : List Char) : Option (List Event) :=
  if tokens [] text = [] then some []
  else match parseLine text with
    | some l => l.events
    | none => none

/-- An upper-case hexadecimal digit. -/
def hexDigit (d : Nat) : Char := if d < 10 then Char.ofNat (48 + d) else Char.ofNat (55 + d)

/-- `k` hexadecimal digits of `n`. -/
def hexDigits (k n : Nat) : List Char :=
  match k with
  | 0 => []
  | k + 1 => hexDigits k (n / 16) ++ [hexDigit (n % 16)]

/-- A signed number in decimal. -/
def decimal (v : Int) : List Char :=
  if v < 0 then '-' :: Nat.toDigits 10 v.natAbs else Nat.toDigits 10 v.natAbs

/-- R68: a word that matches a row of R56 is that operation; any other is `.word`. -/
def disassemble (w : Word) : Source :=
  match decodeWord w with
  | some i => .op i
  | none => .word w.toNat

/-- R68: CH in decimal, SETW's VAL in decimal, TICKPPM's in four hexadecimal digits, `.word` in eight. -/
def printSource (src : Source) : List Char :=
  match src with
  | .op (.setw ch val) => kwSetw ++ ' ' :: decimal ch ++ ',' :: ' ' :: decimal val
  | .op (.getw ch) => kwGetw ++ ' ' :: decimal ch
  | .op .init => kwInit
  | .op .tickpwm => kwTickpwm
  | .op (.tickppm s) => kwTickppm ++ ' ' :: '0' :: 'x' :: hexDigits 4 s.toNat
  | .word w => kwWord ++ ' ' :: '0' :: 'x' :: hexDigits 8 w

end Sys2Proof.Machine
end

