-- ==== Sys2Proof/Safety.lean ====
section
/-! DEFINITION. The terms the statements use: the invariant of R30, the kinds of events, and runs over a schedule. No
rule of the block is decided here. -/

namespace Sys2Proof.Machine

/-- The ranges of R30 with the array sizes of R32, and OUT within its N_PWM bits (R20). ACC is at most ACC_MAX by its
width (R21). -/
abbrev Block.wf (c : Config) (b : Block) : Prop :=
  b.fc.toNat < c.f ∧
  (b.cw.length = c.nPwm ∧ b.cp.length = c.nPwm ∧ b.acc.length = c.nPpm ∧ b.dw.length = c.nPpm) ∧
  (∀ x ∈ b.cw, x.toNat < c.f) ∧ (∀ x ∈ b.cp, x.toNat < c.f) ∧ (∀ x ∈ b.dw, x.toNat ≤ c.dwMax) ∧
  b.out &&& ~~~ones c.nPwm = 0#16

/-- A legal configuration (R9) and a block within R30. -/
abbrev State.wf (s : State) : Prop := s.cfg.legal ∧ s.block.wf s.cfg

/-- A PWM tick event (R12). -/
def isPwmTick (e : Event) : Bool := decide (decodeEvent e = .op .tickpwm)

/-- The sample word of a PPM tick event (R12). -/
def ppmSample (e : Event) : Option Mask :=
  match decodeEvent e with
  | .op (.tickppm s) => some s
  | _ => none

/-- The Reset event (R128). -/
def isReset (e : Event) : Bool := decide (decodeEvent e = .reset)

/-- INIT, on the host port (R110). -/
def isInit (e : Event) : Bool := decide (decodeEvent e = .op .init)

/-- A SETW to channel `c`, and the value it carries (R72). -/
def setwOf (c : Nat) (e : Event) : Option Int :=
  match decodeEvent e with
  | .op (.setw ch val) => if ch = c then some val else none
  | _ => none

/-- An event that exists in the hardware: any but a malformed strobe event (R63). -/
def isReal (e : Event) : Bool :=
  match decodeEvent e with
  | .malformedStrobe _ => false
  | _ => true

/-- An event that exists and is not Reset. -/
def isOrdinary (e : Event) : Bool := isReal e && !isReset e

/-- How many PWM ticks a list of events holds. -/
def pwmTicks (es : List Event) : Nat := es.countP isPwmTick

/-- How many PPM ticks a list of events holds. -/
def ppmTicks (es : List Event) : Nat := es.countP fun e => (ppmSample e).isSome

/-- Every PPM tick among the events samples line `c` at the given level. -/
abbrev samplesAll (c : Nat) (level : Bool) (es : List Event) : Prop :=
  ∀ e ∈ es, ∀ smp, ppmSample e = some smp → sampleBit smp c = level

/-- `k` steps, stopping at the first that does not answer a next state. -/
def runFor (k : Nat) (s : State) : Result :=
  match k with
  | 0 => .next s
  | k + 1 =>
    match step s with
    | .next t => runFor k t
    | .fault r => .fault r
    | .refused r => .refused r

/-- `s` with the events `es` scheduled, and nothing after them. -/
def scheduled (s : State) (es : List Event) : State := { s with schedule := es }

/-- The run of the events `es` from `s`, one event a step (R40). -/
def runEvents (s : State) (es : List Event) : Result := runFor es.length (scheduled s es)

/-- The states after each of the first `k` steps. -/
def trace (k : Nat) (s : State) : List State :=
  match k with
  | 0 => []
  | k + 1 =>
    match step s with
    | .next t => t :: trace k t
    | _ => []

/-- What a run of the events `es` from `s` hands to the GPIO capability, in order (R81). -/
def drivesOf (s : State) (es : List Event) : List Drive :=
  (trace es.length (scheduled s es)).filterMap (·.drive)

/-- On how many of these drives line `c` is high. -/
def highCount (c : Nat) (ds : List Drive) : Nat := ds.countP fun d => d.setMask.getLsbD c

/-- The in-frame index of the armed PWM tick that left FC at this value: FC = F - 1 - t (R19, R80). -/
def inFrameIndex (c : Config) (fc : U16) : Nat := c.f - 1 - fc.toNat

/-- The value CW[c] that the last SETW to channel `c` among the events stores, `was` where there is none (R47). -/
def lastWidth (cfg : Config) (c : Nat) (was : U16) (es : List Event) : U16 :=
  es.foldl (fun v e => match setwOf c e with
    | some val => clampw cfg val
    | none => v) was

/-- The next event of `s` is the falling edge of a plausible pulse on channel `c`: an armed PPM tick that samples it
low with ACC[c] above OFFSET (R92, R94). -/
def plausibleEnd (c : Nat) (s : State) : Bool :=
  match s.schedule with
  | [] => false
  | e :: _ =>
    match ppmSample e with
    | some smp => s.block.ppmArmed && !smp.getLsbD c && decide (s.cfg.offset < (s.block.acc.getD c 0#32).toNat)
    | none => false

/-- The next event of `s` is a boundary tick: an armed PWM tick with FC = 0 (R76). -/
def boundaryNext (s : State) : Bool :=
  match s.schedule with
  | [] => false
  | e :: _ => isPwmTick e && s.block.pwmArmed && decide (s.block.fc = 0#16)

/-- One of the first `k` steps from `s` starts at a state with `p`. -/
def occursWithin (p : State → Bool) (k : Nat) (s : State) : Bool :=
  match k with
  | 0 => false
  | k + 1 =>
    p s ||
      match step s with
      | .next t => occursWithin p k t
      | _ => false

/-- The widths loaded at the last boundary tick, 0 if there was none since Reset (R30): how the step at `s` changes
them. -/
def loadedNext (s : State) (loaded : List U16) : List U16 :=
  match s.schedule with
  | [] => loaded
  | e :: _ =>
    if isReset e then List.replicate s.cfg.nPwm 0#16
    else if boundaryNext s then s.block.cw
    else loaded

/-- R30 whole: the ranges, and every period at most the width loaded at the last boundary tick. -/
abbrev withinRanges (s : State) (loaded : List U16) : Prop :=
  s.wf ∧ loaded.length = s.cfg.nPwm ∧
  ∀ c, c < s.cfg.nPwm → (s.block.cp.getD c 0#16).toNat ≤ (loaded.getD c 0#16).toNat

/-- What the events since Reset come to, in the rules' own terms and read from the events alone: no state of the block
is consulted. Channels outside the configuration carry values that nothing reads. -/
structure History where
  /-- INIT has come (R106, R109). -/
  armed : Bool
  /-- The value of the last SETW to a channel, clamped; 0 if none (R47, R71). -/
  commanded : Nat → Nat
  /-- How many armed PWM ticks there were (R80). -/
  ticks : Nat
  /-- The widths loaded at the last boundary tick (R82). -/
  loaded : Nat → Nat
  /-- H, how many consecutive armed PPM ticks up to now sampled a channel high (R99). -/
  high : Nat → Nat
  /-- The value that the last plausible pulse on a channel stands for; 0 if none (R22, R99). -/
  decoded : Nat → Nat

/-- Right after Reset nothing has come. -/
def History.start : History :=
  { armed := false, commanded := fun _ => 0, ticks := 0, loaded := fun _ => 0, high := fun _ => 0, decoded := fun _ => 0 }

/-- An armed PWM tick: the ticks with k mod F = 0, counted from k = 0, load the commanded widths (R80, R82). -/
def History.pwmTick (c : Config) (h : History) : History :=
  { h with ticks := h.ticks + 1, loaded := if h.ticks % c.f = 0 then h.commanded else h.loaded }

/-- An armed PPM tick: on each channel a high sample lengthens the pulse, a low one ends it (R99). -/
def History.ppmTick (c : Config) (smp : Mask) (h : History) : History :=
  { h with
    high := fun k => if smp.getLsbD k then h.high k + 1 else 0
    decoded := fun k =>
      if smp.getLsbD k = false ∧ c.offset < min (h.high k) Config.accMax then
        min (min (h.high k) Config.accMax - c.offset) c.dwMax
      else h.decoded k }

/-- What an operation adds. -/
def History.afterOp (c : Config) (i : Instr) (h : History) : History :=
  match i with
  | .setw ch val =>
    { h with commanded := fun k => if k = ch then (min (max val 0) ((c.f : Int) - 1)).toNat else h.commanded k }
  | .getw _ => h
  | .init => { h with armed := true }
  | .tickpwm => if h.armed then h.pwmTick c else h
  | .tickppm smp => if h.armed then h.ppmTick c smp else h

/-- What an event adds. -/
def History.next (c : Config) (e : Event) (h : History) : History :=
  match decodeEvent e with
  | .op i => h.afterOp c i
  | .illegalCommand _ => h
  | .malformedStrobe _ => h
  | .reset => History.start

/-- What the step at `s` adds: its event, or nothing where none is scheduled. -/
def historyNext (s : State) (h : History) : History :=
  match s.schedule with
  | [] => h
  | e :: _ => h.next s.cfg e

/-- The in-frame index of the last armed PWM tick, which is tick k = ticks - 1 (R80). -/
def History.inFrame (c : Config) (h : History) : Nat := (h.ticks - 1) % c.f

/-- The block stands where its history puts it, with LITERAL_DECREMENT off: the armed bits; CW the commanded widths;
ACC and DW by R99; before the first armed PWM tick FC = 0 and no period; after it, at in-frame index t, FC = F - 1 - t,
CP = max (w - t) 0 and line c high exactly when 1 ≤ t ≤ w, w the width loaded (R19, R82). -/
structure Follows (h : History) (s : State) : Prop where
  wf : s.wf
  normative : s.cfg.literalDecrement = false
  pwmArmed : s.block.pwmArmed = h.armed
  ppmArmed : s.block.ppmArmed = h.armed
  cw : ∀ c, c < s.cfg.nPwm → s.block.cw[c]?.map BitVec.toNat = some (h.commanded c)
  acc : ∀ c, c < s.cfg.nPpm → s.block.acc[c]?.map BitVec.toNat = some (min (h.high c) Config.accMax)
  dw : ∀ c, c < s.cfg.nPpm → s.block.dw[c]?.map BitVec.toNat = some (h.decoded c)
  beforeFirstTick : h.ticks = 0 →
    s.block.fc = 0#16 ∧ ∀ c, c < s.cfg.nPwm → s.block.cp[c]?.map BitVec.toNat = some 0
  inFrame : h.ticks ≠ 0 →
    s.block.fc.toNat = s.cfg.f - 1 - h.inFrame s.cfg ∧
    ∀ c, c < s.cfg.nPwm →
      s.block.cp[c]?.map BitVec.toNat = some (h.loaded c - h.inFrame s.cfg) ∧
      s.block.outBit c = decide (1 ≤ h.inFrame s.cfg ∧ h.inFrame s.cfg ≤ h.loaded c)

end Sys2Proof.Machine
end

