-- ==== Sys2Proof/Certificates/Slice0/Obligations.lean ====
section
/-! DEFINITION. The statements for the provers, from the numbered rules of spec/.
How a state shows an event is the model's: that a step takes its event from `schedule`, and that the output of the event
just run stands in `response` and `drive`, are log entries 1, 3 and 7. What is put there is the rules'. -/

open Sys2Proof Sys2Proof.Machine

/-! ## Encoding and listing -/

/-- R60, R63, R65: an operation with operands in range decodes back from its word, by the opcode map and on its port. -/
def Obligations.DecodeOfEncode : Prop :=
  ∀ i : Instr, i.wf = true →
    decodeWord (encode i) = some i ∧ decodeEvent (eventOf i) = .op i ∧ assemble i = some (encode i)

/-- R65, R68: the other direction. A word that decodes is the encoding of what it decodes to, which is in range. -/
def Obligations.EncodeOfDecode : Prop :=
  ∀ (w : Word) (i : Instr), decodeWord w = some i → i.wf = true ∧ encode i = w ∧ eventOf i = eventOfWord w

/-- R56: a word is the operation of a row exactly when `(w & mask) = match`; the row's port is the word's; no two
rows overlap. -/
def Obligations.DecoderFollowsOpcodeMap : Prop :=
  ∀ (w : Word) (m : Mnemonic),
    ((opcodeRow m).matches w ↔ ∃ i, decodeWord w = some i ∧ i.mnemonic = m) ∧
    ((opcodeRow m).matches w → portOfWord w = (opcodeRow m).port ∧
      ∀ m', (opcodeRow m').matches w → m' = m)

/-- R57, R68: on the host port a word is legal exactly when its disassembly is SETW, GETW or INIT. -/
def Obligations.HostWordLegality : Prop :=
  ∀ (w : Word) (i : Instr),
    decodeHost w = .op i ↔
      disassemble w = .op i ∧ (i.mnemonic = .setw ∨ i.mnemonic = .getw ∨ i.mnemonic = .init)

/-- R67: the worked encodings, from the operation to its word and back. -/
def Obligations.WorkedEncodings : Prop :=
  ∀ x ∈ [(Instr.setw 0 150, 0x10000096#32), (Instr.setw 1 (-5), 0x1001FFFB#32), (Instr.setw 3 32767, 0x10037FFF#32),
      (Instr.setw 4 10, 0x1004000A#32), (Instr.getw 3, 0x20030000#32), (Instr.getw 255, 0x20FF0000#32),
      (Instr.init, 0x30000000#32), (Instr.tickpwm, 0x40000000#32), (Instr.tickppm 0x0008#16, 0x50000008#32),
      (Instr.tickppm 0x00FF#16, 0x500000FF#32)],
    assemble x.1 = some x.2 ∧ decodeWord x.2 = some x.1

/-- R65, R66, R68: the listing of any word, repeated by REP, assembles to that many copies of the word, on the port of
its mnemonic, and on the host port for `.word`. Without REP it is one event. -/
def Obligations.ListingRoundTrip : Prop :=
  ∀ (w : Word) (n : Nat), 1 ≤ n →
    let e := match decodeWord w with
      | some i => eventOf i
      | none => Event.host w
    assembleLine (printSource (disassemble w)) = some [e] ∧
    assembleLine (kwRep ++ ' ' :: decimal n ++ ',' :: ' ' :: printSource (disassemble w)) =
      some (List.replicate n e)

/-- R35, D18: a word sent over a byte-serial link, least significant byte first, is the word received. -/
def Obligations.LinkByteOrder : Prop :=
  ∀ w : Word, (linkBytes w).head? = some (w.extractLsb' 0 8) ∧ wordOfLinkBytes (linkBytes w) = some w

/-! ## Steps -/

/-- R12, R40: when the next event asks for an operation, or is the event of a well-formed one, the step is that
operation's `exec`; whatever it leaves, the event has been taken from the schedule (log entry 7). -/
def Obligations.StepRunsDecodedOperation : Prop :=
  ∀ (s : State) (e : Event) (rest : List Event) (i : Instr),
    s.cfg.legal → s.schedule = e :: rest →
    decodeEvent e = .op i ∨ (i.wf = true ∧ e = eventOf i) →
    step s = exec i s ∧ ∀ t, exec i s = .next t → t.schedule = rest ∧ t.cfg = s.cfg

/-- R60, R115: a host word whose OP is reserved or a tick OP, or with a nonzero must-be-zero field, changes no state
and answers 0x20000000. -/
def Obligations.IllegalCommandAnswer : Prop :=
  ∀ (s : State) (w : Word) (rest : List Event),
    s.cfg.legal → s.schedule = .host w :: rest →
    (opField w ≠ 1#4 ∧ opField w ≠ 2#4 ∧ opField w ≠ 3#4) ∨ rsvField w ≠ 0#4 ∨
      (opField w = 2#4 ∧ valField w ≠ 0#16) ∨ (opField w = 3#4 ∧ (chField w ≠ 0#8 ∨ valField w ≠ 0#16)) →
    step s = .next { s with schedule := rest, response := some 0x20000000#32, drive := none }

/-- R63: the PWM strobe's word is exactly 0x40000000 and the PPM strobe's 0x50000000 | s; any other word as a strobe
event is refused. -/
def Obligations.StrobeWords : Prop :=
  ∀ (s : State) (w : Word) (rest : List Event), s.cfg.legal →
    (s.schedule = .pwmStrobe w :: rest →
      step s = if w = 0x40000000#32 then exec .tickpwm s else .refused .malformedStrobe) ∧
    (s.schedule = .ppmStrobe w :: rest →
      (∀ smp : Mask, w = (0x50000000#32 ||| smp.setWidth 32) → step s = exec (.tickppm smp) s) ∧
      ((∀ smp : Mask, w ≠ (0x50000000#32 ||| smp.setWidth 32)) → step s = .refused .malformedStrobe))

/-- R6, R9: a configuration outside the legal ranges is refused, and no other. -/
def Obligations.IllegalConfigurationRefused : Prop :=
  ∀ s : State,
    step s = .refused .illegalConfiguration ↔
      (s.cfg.nPwm < 1 ∨ 16 < s.cfg.nPwm ∨ s.cfg.nPpm < 1 ∨ 16 < s.cfg.nPpm ∨ s.cfg.f < 1 ∨ 32768 < s.cfg.f ∨
        4294967294 < s.cfg.offset ∨ s.cfg.dwMax < 1 ∨ 65535 < s.cfg.dwMax ∨ s.cfg.tickUs ≤ 0)

/-- R29, R128: Reset sets every element to its reset value, answers nothing and drives nothing; OUT becomes a draw
OUT_INIT. The model's choice, not the rules': that the draw is `outInit` at a counter which each Reset advances (log
entry 5), and that the bits of OUT at and above N_PWM are 0 (log entry 12). -/
def Obligations.ResetEventEffect : Prop :=
  ∀ (s : State) (rest : List Event), s.cfg.legal → s.schedule = .reset :: rest →
    ∃ t, step s = .next t ∧ t.cfg = s.cfg ∧ t.schedule = rest ∧ t.response = none ∧ t.drive = none ∧
      t.draws = s.draws + 1 ∧ t.block.ctrl = 0#2 ∧ t.block.fc = 0#16 ∧
      (t.block.cw.length = s.cfg.nPwm ∧ t.block.cp.length = s.cfg.nPwm ∧ t.block.acc.length = s.cfg.nPpm ∧
        t.block.dw.length = s.cfg.nPpm) ∧
      (∀ c, c < s.cfg.nPwm → t.block.cw[c]? = some 0#16 ∧ t.block.cp[c]? = some 0#16 ∧
        t.block.outBit c = (Config.outInit s.draws).getLsbD c) ∧
      (∀ c, c < s.cfg.nPpm → t.block.acc[c]? = some 0#32 ∧ t.block.dw[c]? = some 0#16) ∧
      (∀ c, s.cfg.nPwm ≤ c → t.block.outBit c = false)

/-- R29, R129: the machine right after reset: both engines unarmed, every register but OUT at 0, nothing on the
ports. -/
def Obligations.ResetStateValues : Prop :=
  State.reset.cfg = Config.reference ∧ State.reset.block.ctrl = 0#2 ∧ State.reset.block.pwmArmed = false ∧
  State.reset.block.ppmArmed = false ∧ State.reset.block.fc = 0#16 ∧
  State.reset.block.cw = [0#16, 0#16, 0#16, 0#16] ∧ State.reset.block.cp = [0#16, 0#16, 0#16, 0#16] ∧
  State.reset.block.acc = [0#32, 0#32, 0#32, 0#32, 0#32, 0#32, 0#32, 0#32] ∧
  State.reset.block.dw = [0#16, 0#16, 0#16, 0#16, 0#16, 0#16, 0#16, 0#16] ∧
  State.reset.response = none ∧ State.reset.drive = none

/-- R129 (the model's reading, log entry 2): with no event scheduled the block waits: nothing changes and its ports
show no output. -/
def Obligations.EmptyScheduleWaits : Prop :=
  ∀ s : State, s.cfg.legal → s.schedule = [] → step s = .next { s with response := none, drive := none }

/-- R40, R113: every event that exists in the hardware completes in one step, which takes it from the schedule; no
step ends in a fault; a strobe event that does not exist is refused. -/
def Obligations.EveryEventCompletes : Prop :=
  ∀ (s : State), (∀ r, step s ≠ .fault r) ∧
    ∀ (e : Event) (rest : List Event), s.cfg.legal → s.schedule = e :: rest →
      (isReal e = true → ∃ t, step s = .next t ∧ t.schedule = rest) ∧
      (isReal e = false → step s = .refused .malformedStrobe)

/-- R116: a step does not depend on what the ports last showed; and a host command that answers an error status changes
nothing but the schedule and the ports. So no element of the state records an error. -/
def Obligations.NoErrorIsRecorded : Prop :=
  (∀ (s : State) (r : Option Word) (d : Option Drive), step { s with response := r, drive := d } = step s) ∧
  ∀ (s t : State) (w r : Word) (rest : List Event),
    s.schedule = .host w :: rest → step s = .next t → t.response = some r → r.extractLsb' 28 4 ≠ 0#4 →
    t = { s with schedule := rest, response := some r, drive := none }

/-- R58, R59: every host command answers one response word, its bits 27..16 zero and its status one of the three
codes; no other event answers. -/
def Obligations.ResponseWordForm : Prop :=
  ∀ (s : State) (e : Event) (rest : List Event) (t : State),
    s.schedule = e :: rest → step s = .next t →
    ((∃ w, e = .host w) → ∃ r, t.response = some r ∧ r.extractLsb' 16 12 = 0#12 ∧
      (r.extractLsb' 28 4 = 0#4 ∨ r.extractLsb' 28 4 = 1#4 ∨ r.extractLsb' 28 4 = 2#4) ∧
      (r.extractLsb' 28 4 ≠ 0#4 → r.extractLsb' 0 16 = 0#16)) ∧
    ((∀ w, e ≠ .host w) → t.response = none)

/-! ## Host commands -/

/-- R71, R72: SETW to a valid channel, armed or not, stores min (max val 0) (F - 1) in CW[ch], answers OK, and changes
nothing else. -/
def Obligations.SetwStoresClampedWidth : Prop :=
  ∀ (s : State) (ch : Nat) (val : Int), s.wf → ch < s.cfg.nPwm →
    ∃ t, exec (.setw ch val) s = .next t ∧
      (∃ v, t.block.cw[ch]? = some v ∧ (v.toNat : Int) = min (max val 0) ((s.cfg.f : Int) - 1)) ∧
      t.block.cw.length = s.block.cw.length ∧ (∀ c, c ≠ ch → t.block.cw[c]? = s.block.cw[c]?) ∧
      t = { s with block := { s.block with cw := t.block.cw }, schedule := s.schedule.tail,
                   response := some 0x00000000#32, drive := none }

/-- R71: `clampw` maps every v < 0 to 0, every v > F - 1 to F - 1, and leaves every other value unchanged. -/
def Obligations.WidthClamp : Prop :=
  ∀ (c : Config) (v : Int), c.legal →
    (v < 0 → (clampw c v).toNat = 0) ∧ ((c.f : Int) - 1 < v → (clampw c v).toNat = c.f - 1) ∧
    (0 ≤ v → v ≤ (c.f : Int) - 1 → ((clampw c v).toNat : Int) = v)

/-- R73, R117: SETW with ch >= N_PWM and GETW with ch >= N_PPM change nothing and answer 0x10000000. -/
def Obligations.InvalidChannelAnswer : Prop :=
  ∀ (s : State) (ch : Nat) (val : Int),
    (s.cfg.nPwm ≤ ch → exec (.setw ch val) s =
      .next { s with schedule := s.schedule.tail, response := some 0x10000000#32, drive := none }) ∧
    (s.cfg.nPpm ≤ ch → exec (.getw ch) s =
      .next { s with schedule := s.schedule.tail, response := some 0x10000000#32, drive := none })

/-- R97, R98: GETW of a valid channel, armed or not, answers (OK, DW[ch]) and writes no state. -/
def Obligations.GetwAnswersDecodedWidth : Prop :=
  ∀ (s : State) (ch : Nat), s.wf → ch < s.cfg.nPpm →
    ∃ (v : U16) (r : Word), s.block.dw[ch]? = some v ∧ r = v.setWidth 32 ∧
      exec (.getw ch) s =
        .next { s with schedule := s.schedule.tail, response := some r, drive := none }

/-- R108, R110: INIT sets PWM_ARMED and PPM_ARMED, answers OK, and changes nothing else. -/
def Obligations.InitArmsBothEngines : Prop :=
  ∀ s : State,
    ∃ t, exec .init s = .next t ∧ t.block.ctrl = 0b11#2 ∧ t.block.pwmArmed = true ∧ t.block.ppmArmed = true ∧
      t = { s with block := { s.block with ctrl := 0b11#2 }, schedule := s.schedule.tail,
                   response := some 0x00000000#32, drive := none }

/-- R41, R111: a second INIT, and an equal second SETW, leave the block's state as the first left it and answer the same. -/
def Obligations.InitAndSetwIdempotent : Prop :=
  ∀ (s : State) (i : Instr), i = .init ∨ (∃ ch val, i = .setw ch val) →
    ∃ t u, exec i s = .next t ∧ exec i t = .next u ∧ u.block = t.block ∧ u.response = t.response

/-! ## PWM ticks -/

/-- R75: while PWM_ARMED = 0 a PWM tick changes no state and drives nothing. -/
def Obligations.UnarmedPwmTickHasNoEffect : Prop :=
  ∀ s : State, s.block.ctrl.getLsbD 0 = false →
    exec .tickpwm s = .next { s with schedule := s.schedule.tail, response := none, drive := none }

/-- R76, R79: an armed PWM tick with FC = 0 reloads every period from CW, sets FC to F - 1, forces every line low and
drives that. -/
def Obligations.BoundaryTick : Prop :=
  ∀ s : State, s.cfg.legal → s.block.pwmArmed = true → s.block.fc = 0#16 →
    ∃ t, exec .tickpwm s = .next t ∧ t.block.fc.toNat = s.cfg.f - 1 ∧
      t = { s with
        block := { s.block with cp := s.block.cw, out := 0#16, fc := t.block.fc }
        schedule := s.schedule.tail
        response := none
        drive := some { setMask := 0#16, clearMask := ones s.cfg.nPwm } }

/-- R77, R78, R81, LITERAL_DECREMENT off: an armed PWM tick with FC ≠ 0 counts FC down, drives line c high exactly when
CP[c] is nonzero at the start of the tick, counts that period down, and changes nothing else. CW is not read. The
model's choice: OUT has bits at and above N_PWM, and they are 0 (log entry 12). -/
def Obligations.CountTick : Prop :=
  ∀ s : State, s.wf → s.cfg.literalDecrement = false → s.block.pwmArmed = true → s.block.fc ≠ 0#16 →
    ∃ t, exec .tickpwm s = .next t ∧ t.block.fc.toNat = s.block.fc.toNat - 1 ∧
      t.block.cp.length = s.block.cp.length ∧
      (∀ c p, s.block.cp[c]? = some p →
        (∃ q, t.block.cp[c]? = some q ∧ q.toNat = p.toNat - 1) ∧ t.block.outBit c = decide (0 < p.toNat)) ∧
      (∀ c, s.cfg.nPwm ≤ c → t.block.outBit c = false) ∧
      t = { s with
        block := { s.block with cp := t.block.cp, out := t.block.out, fc := t.block.fc }
        schedule := s.schedule.tail
        response := none
        drive := some { setMask := t.block.out, clearMask := ~~~t.block.out &&& ones s.cfg.nPwm } }

/-- D4, C1, log entry 11: with the non-normative switch LITERAL_DECREMENT on, the level is tested after the decrement: a period of 1
no longer drives the line high. Everything else of the tick is as without it. -/
def Obligations.LiteralDecrementTick : Prop :=
  ∀ s : State, s.wf → s.cfg.literalDecrement = true → s.block.pwmArmed = true → s.block.fc ≠ 0#16 →
    ∃ t, exec .tickpwm s = .next t ∧ t.block.fc.toNat = s.block.fc.toNat - 1 ∧
      ∀ c p, s.block.cp[c]? = some p →
        (∃ q, t.block.cp[c]? = some q ∧ q.toNat = p.toNat - 1) ∧ t.block.outBit c = decide (1 < p.toNat)

/-- R81: an armed PWM tick hands over two masks that never share a bit and together cover every line; applied to any
levels they give OUT' on every line and touch no other bit. An unarmed tick, and any other operation, drives nothing. -/
def Obligations.DriveCoversEveryLine : Prop :=
  ∀ s : State, s.wf → ∀ i t, exec i s = .next t →
    if i = .tickpwm ∧ s.block.pwmArmed = true then
      ∃ d, t.drive = some d ∧ d.setMask = t.block.out ∧ d.setMask &&& d.clearMask = 0#16 ∧
        d.setMask ||| d.clearMask = ones s.cfg.nPwm ∧
        ∀ lines c, (d.apply lines).getLsbD c =
          if c < s.cfg.nPwm then t.block.outBit c else lines.getLsbD c
    else t.drive = none

/-- R88: what a PWM tick does to line c and its period depends on FC, the armed bit, CW[c] and CP[c] alone. -/
def Obligations.PwmChannelsIndependent : Prop :=
  ∀ (s₁ s₂ t₁ t₂ : State) (c : Nat), s₁.wf → s₂.wf → s₁.cfg = s₂.cfg → c < s₁.cfg.nPwm →
    s₁.block.pwmArmed = true → s₂.block.pwmArmed = true → s₁.block.fc = s₂.block.fc →
    s₁.block.cw[c]? = s₂.block.cw[c]? → s₁.block.cp[c]? = s₂.block.cp[c]? →
    exec .tickpwm s₁ = .next t₁ → exec .tickpwm s₂ = .next t₂ →
    t₁.block.outBit c = t₂.block.outBit c ∧ t₁.block.cp[c]? = t₂.block.cp[c]?

/-! ## PPM ticks -/

/-- R96: while PPM_ARMED = 0 a PPM tick changes no state. -/
def Obligations.UnarmedPpmTickHasNoEffect : Prop :=
  ∀ (s : State) (smp : Mask), s.block.ctrl.getLsbD 1 = false →
    exec (.tickppm smp) s = .next { s with schedule := s.schedule.tail, response := none, drive := none }

/-- R92 to R95: an armed PPM tick, channel by channel: a high sample counts ACC[c] up to 2^32 - 1 and leaves DW[c]; a
low sample clears ACC[c], and stores min (ACC[c] - OFFSET) DW_MAX in DW[c] exactly when ACC[c] > OFFSET. Nothing else
changes, and a tick answers nothing. -/
def Obligations.PpmTickChannelRule : Prop :=
  ∀ (s : State) (smp : Mask), s.wf → s.block.ppmArmed = true →
    ∃ t, exec (.tickppm smp) s = .next t ∧
      (∀ c a d, s.block.acc[c]? = some a → s.block.dw[c]? = some d →
        ∃ a' d', t.block.acc[c]? = some a' ∧ t.block.dw[c]? = some d' ∧
          (smp.getLsbD c = true → a'.toNat = min (a.toNat + 1) 4294967295 ∧ d' = d) ∧
          (smp.getLsbD c = false → a'.toNat = 0 ∧
            (s.cfg.offset < a.toNat → d'.toNat = min (a.toNat - s.cfg.offset) s.cfg.dwMax) ∧
            (a.toNat ≤ s.cfg.offset → d' = d))) ∧
      t.block.acc.length = s.cfg.nPpm ∧ t.block.dw.length = s.cfg.nPpm ∧
      t = { s with
        block := { s.block with acc := t.block.acc, dw := t.block.dw }
        schedule := s.schedule.tail
        response := none
        drive := none }

/-- R62, R91: bits N_PPM .. 15 of the sample word are ignored. -/
def Obligations.HighSampleBitsIgnored : Prop :=
  ∀ (s : State) (x y : Mask), s.wf → (∀ c, c < s.cfg.nPpm → x.getLsbD c = y.getLsbD c) →
    exec (.tickppm x) s = exec (.tickppm y) s

/-- R104: ACC[c] and DW[c] after a PPM tick depend on bit c of the sample, the armed bit and that channel alone. -/
def Obligations.PpmChannelsIndependent : Prop :=
  ∀ (s₁ s₂ t₁ t₂ : State) (x y : Mask) (c : Nat), s₁.cfg = s₂.cfg → s₁.block.ppmArmed = s₂.block.ppmArmed →
    x.getLsbD c = y.getLsbD c → s₁.block.acc[c]? = s₂.block.acc[c]? → s₁.block.dw[c]? = s₂.block.dw[c]? →
    exec (.tickppm x) s₁ = .next t₁ → exec (.tickppm y) s₂ = .next t₂ →
    t₁.block.acc[c]? = t₂.block.acc[c]? ∧ t₁.block.dw[c]? = t₂.block.dw[c]?

/-- R27: the source's per-channel state machine, read from ACC: a high sample leads to Accumulating, a low sample to
Idle/Low, with the decoded width updated when the accumulator exceeds the offset and unchanged when it does not. -/
def Obligations.PpmPhaseMachine : Prop :=
  ∀ (c : Config) (a : U32) (d : U16), c.legal →
    ppmPhase (nextAcc true a) = .accumulating ∧ nextDw c true a d = d ∧
    ppmPhase (nextAcc false a) = .idleLow ∧
    (c.offset < a.toNat → 1 ≤ (nextDw c false a d).toNat ∧ (nextDw c false a d).toNat ≤ c.dwMax) ∧
    (a.toNat ≤ c.offset → nextDw c false a d = d)

/-- R103: DW[c] changes, other than by Reset, only at the falling edge of a plausible pulse on line c. -/
def Obligations.DecodedWidthChangesOnlyAtPulseEnd : Prop :=
  ∀ (s t : State) (c : Nat), s.wf → step s = .next t → (∀ e ∈ s.schedule.head?, isReset e = false) →
    t.block.dw[c]? ≠ s.block.dw[c]? →
    ∃ w rest, s.schedule = .ppmStrobe w :: rest ∧ s.block.ppmArmed = true ∧ w.getLsbD c = false ∧
      ∃ a, s.block.acc[c]? = some a ∧ s.cfg.offset < a.toNat

/-! ## Ownership and order -/

/-- R26: each element has one writer: SETW writes CW, TICKPWM writes CP, FC and OUT, TICKPPM writes ACC and DW, INIT
writes CTRL; GETW writes nothing. -/
def Obligations.SingleWriter : Prop :=
  ∀ (i : Instr) (s : State), ∃ t, exec i s = .next t ∧
    (i.mnemonic ≠ .setw → t.block.cw = s.block.cw) ∧
    (i.mnemonic ≠ .tickpwm → t.block.cp = s.block.cp ∧ t.block.fc = s.block.fc ∧ t.block.out = s.block.out) ∧
    (i.mnemonic ≠ .tickppm → t.block.acc = s.block.acc ∧ t.block.dw = s.block.dw) ∧
    (i.mnemonic ≠ .init → t.block.ctrl = s.block.ctrl) ∧
    (i.mnemonic = .getw → t.block = s.block) ∧
    t.cfg = s.cfg ∧ t.draws = s.draws ∧ t.schedule = s.schedule.tail

/-- R24: no event writes the configuration. -/
def Obligations.ConfigurationIsFixed : Prop := ∀ s t : State, step s = .next t → t.cfg = s.cfg

/-- R42: a PWM tick and a PPM tick commute: same state and same drive in either order. -/
def Obligations.TicksCommute : Prop :=
  ∀ (s : State) (smp : Mask), ∃ t₁ t₂ u₁ u₂,
    exec .tickpwm s = .next t₁ ∧ exec (.tickppm smp) t₁ = .next t₂ ∧
    exec (.tickppm smp) s = .next u₁ ∧ exec .tickpwm u₁ = .next u₂ ∧
    t₂.block = u₂.block ∧ t₁.drive = u₂.drive ∧ t₁.response = u₂.response ∧ t₂.response = u₁.response

/-- R43: SETW commutes with every PPM tick and every non-boundary PWM tick; at a boundary tick the order shows: SETW
first loads the new width, SETW second the old one, and the new one waits in CW. -/
def Obligations.SetwAgainstTicks : Prop :=
  ∀ (s : State) (ch : Nat) (val : Int), s.wf → s.block.pwmArmed = true → ch < s.cfg.nPwm →
    (∀ j, j = .tickpwm ∧ s.block.fc ≠ 0#16 ∨ (∃ smp, j = .tickppm smp) →
      ∃ t₁ t₂ u₁ u₂, exec (.setw ch val) s = .next t₁ ∧ exec j t₁ = .next t₂ ∧ exec j s = .next u₁ ∧
        exec (.setw ch val) u₁ = .next u₂ ∧ t₂.block = u₂.block ∧ t₂.drive = u₁.drive ∧ t₁.response = u₂.response) ∧
    (s.block.fc = 0#16 → ∃ t₁ t₂ u₁ u₂,
      exec (.setw ch val) s = .next t₁ ∧ exec .tickpwm t₁ = .next t₂ ∧ exec .tickpwm s = .next u₁ ∧
      exec (.setw ch val) u₁ = .next u₂ ∧ t₂.block.cp[ch]? = some (clampw s.cfg val) ∧
      u₂.block.cp[ch]? = s.block.cw[ch]? ∧ u₂.block.cw[ch]? = some (clampw s.cfg val))

/-- R44: GETW answers the same before and after every operation but a PPM tick that writes DW of its channel; after
such a tick it answers the new width. -/
def Obligations.GetwAgainstTicks : Prop :=
  ∀ (s : State) (ch : Nat) (i : Instr) (t u v : State), exec i s = .next t →
    exec (.getw ch) s = .next u → exec (.getw ch) t = .next v →
    ((∀ smp, i = .tickppm smp → t.block.dw[ch]? = s.block.dw[ch]?) → v.response = u.response) ∧
    (ch < s.cfg.nPpm → ∀ d, t.block.dw[ch]? = some d → v.response = some (responseWord .ok d))

/-! ## Invariants -/

/-- R30: every step keeps the ranges of R30, with the widths loaded at the last boundary tick carried along. The bits of
OUT at and above N_PWM, 0 here, are log entry 12. -/
def Obligations.StepKeepsRanges : Prop :=
  ∀ (s t : State) (loaded : List U16), withinRanges s loaded → step s = .next t →
    withinRanges t (loadedNext s loaded)

/-- R29, R30: after Reset the ranges hold, with no width loaded, in every legal configuration. -/
def Obligations.ResetWithinRanges : Prop :=
  ∀ c : Config, c.legal → withinRanges (State.resetWith c) (List.replicate c.nPwm 0#16)

/-- R106, R109: an armed engine stays armed until Reset, and only INIT arms an engine. -/
def Obligations.ArmedFromInitToReset : Prop :=
  ∀ (s t : State) (e : Event) (rest : List Event), s.schedule = e :: rest → step s = .next t →
    (isReset e = false → (s.block.pwmArmed = true → t.block.pwmArmed = true) ∧
      (s.block.ppmArmed = true → t.block.ppmArmed = true)) ∧
    (isInit e = false → (s.block.pwmArmed = false → t.block.pwmArmed = false) ∧
      (s.block.ppmArmed = false → t.block.ppmArmed = false))

/-! ## Runs: whatever else is interleaved -/

/-- R82, LITERAL_DECREMENT off: let w be CW[c] when a boundary tick runs. After that tick and any other events without Reset, among them t PWM
ticks with t below F, CP[c] is w - t (0 from w on) and line c is high exactly when 1 ≤ t ≤ w. -/
def Obligations.FrameWaveform : Prop :=
  ∀ (s : State) (es : List Event) (c : Nat) (w : U16),
    s.wf → s.cfg.literalDecrement = false → s.block.pwmArmed = true → s.block.fc = 0#16 →
    s.block.cw[c]? = some w → (∀ e ∈ es, isOrdinary e = true) → pwmTicks es < s.cfg.f →
    ∃ t, runEvents s (eventOf .tickpwm :: es) = .next t ∧
      (∃ p, t.block.cp[c]? = some p ∧ p.toNat = w.toNat - pwmTicks es) ∧
      t.block.outBit c = decide (1 ≤ pwmTicks es ∧ pwmTicks es ≤ w.toNat)

/-- R83, one frame, LITERAL_DECREMENT off: over a boundary tick and F - 1 further PWM ticks, with any other events but Reset between them,
line c is driven high exactly w times, w the width loaded at that boundary tick. -/
def Obligations.FrameHighTicks : Prop :=
  ∀ (s : State) (es : List Event) (c : Nat) (w : U16),
    s.wf → s.cfg.literalDecrement = false → s.block.pwmArmed = true → s.block.fc = 0#16 →
    s.block.cw[c]? = some w → (∀ e ∈ es, isOrdinary e = true) → pwmTicks es = s.cfg.f - 1 →
    (drivesOf s (eventOf .tickpwm :: es)).length = s.cfg.f ∧
    highCount c (drivesOf s (eventOf .tickpwm :: es)) = w.toNat

/-- R83, any window of F ticks, LITERAL_DECREMENT off: it starts in a frame of width w1, k ticks after that frame's boundary tick, and ends in
the next frame, of width w2. Its high ticks lie between min w1 w2 and max w1 w2, so they are exactly w when both are. -/
def Obligations.WindowHighTicks : Prop :=
  ∀ (s m : State) (es₀ es₁ es₂ : List Event) (c : Nat) (w₁ w₂ : U16) (b : State),
    s.wf → s.cfg.literalDecrement = false → s.block.pwmArmed = true → s.block.fc = 0#16 →
    s.block.cw[c]? = some w₁ →
    (∀ e ∈ es₀, isOrdinary e = true) → (∀ e ∈ es₁, isOrdinary e = true) → (∀ e ∈ es₂, isOrdinary e = true) →
    pwmTicks es₀ + pwmTicks es₁ = s.cfg.f - 1 → pwmTicks es₂ = pwmTicks es₀ →
    runEvents s (eventOf .tickpwm :: es₀) = .next m → runEvents m es₁ = .next b → b.block.cw[c]? = some w₂ →
    (drivesOf m (es₁ ++ eventOf .tickpwm :: es₂)).length = s.cfg.f ∧
    min w₁.toNat w₂.toNat ≤ highCount c (drivesOf m (es₁ ++ eventOf .tickpwm :: es₂)) ∧
    highCount c (drivesOf m (es₁ ++ eventOf .tickpwm :: es₂)) ≤ max w₁.toNat w₂.toNat

/-- R19, R80, R85: number the armed PWM ticks of a run from the boundary tick, 0. After tick k the in-frame index is
k mod F, that is FC = F - 1 - (k mod F), and when it is 0 every line is low, whatever CW and CP hold. -/
def Obligations.FramePhase : Prop :=
  ∀ (s : State) (es : List Event) (k : Nat),
    s.wf → s.block.pwmArmed = true → s.block.fc = 0#16 → (∀ e ∈ es, isOrdinary e = true) → pwmTicks es = k + 1 →
    ∃ t, runEvents s es = .next t ∧ inFrameIndex s.cfg t.block.fc = k % s.cfg.f ∧
      t.block.fc.toNat = s.cfg.f - 1 - k % s.cfg.f ∧ (k % s.cfg.f = 0 → t.block.out = 0#16)

/-- R84, R86, over any number of frames, LITERAL_DECREMENT off: while no SETW changes CW[c] = w, line c is high after armed PWM tick k exactly
when 1 ≤ k mod F ≤ w. So width 0 is always low and width F - 1 is low on the boundary tick only. -/
def Obligations.SteadyWidthWaveform : Prop :=
  ∀ (s : State) (es : List Event) (c k : Nat) (w : U16),
    s.wf → s.cfg.literalDecrement = false → s.block.pwmArmed = true → s.block.fc = 0#16 →
    s.block.cw[c]? = some w → (∀ e ∈ es, isOrdinary e = true ∧ setwOf c e = none) → pwmTicks es = k + 1 →
    ∃ t, runEvents s es = .next t ∧
      t.block.outBit c = decide (1 ≤ k % s.cfg.f ∧ k % s.cfg.f ≤ w.toNat)

/-- R86, LITERAL_DECREMENT off: with F = 1000 and CW[0] = 150 loaded at a boundary tick and kept, line 0 is high on in-frame ticks 1 .. 150 and
low on tick 0 and on ticks 151 .. 999. -/
def Obligations.ScenarioWidth150 : Prop :=
  ∀ (s : State) (es : List Event) (k : Nat),
    s.wf → s.cfg.f = 1000 → s.cfg.literalDecrement = false → s.block.pwmArmed = true → s.block.fc = 0#16 →
    s.block.cw[0]? = some 150#16 → (∀ e ∈ es, isOrdinary e = true ∧ setwOf 0 e = none) → pwmTicks es = k + 1 →
    ∃ t, runEvents s es = .next t ∧
      (1 ≤ k % 1000 ∧ k % 1000 ≤ 150 → t.block.outBit 0 = true) ∧
      (k % 1000 = 0 ∨ 151 ≤ k % 1000 → t.block.outBit 0 = false)

/-- R87, R107: from Reset, whatever events but INIT and Reset come first, INIT, and then any events but PWM ticks and
Reset: the next PWM tick is a boundary tick, and loads the CW values that stand at it. -/
def Obligations.FirstArmedTickIsBoundary : Prop :=
  ∀ (c : Config) (es₁ es₂ : List Event), c.legal →
    (∀ e ∈ es₁, isOrdinary e = true ∧ isInit e = false) →
    (∀ e ∈ es₂, isOrdinary e = true ∧ isPwmTick e = false) →
    ∃ s t, runEvents (State.resetWith c) (es₁ ++ eventOf .init :: es₂) = .next s ∧
      s.block.pwmArmed = true ∧ s.block.fc = 0#16 ∧ exec .tickpwm s = .next t ∧
      t.block.cp = s.block.cw ∧ t.block.out = 0#16 ∧ t.block.fc.toNat = c.f - 1 ∧
      ∀ ch, ch < c.nPwm →
        t.block.cp[ch]? = some (lastWidth c ch 0#16 (es₁ ++ eventOf .init :: es₂))

/-- R47 (2): after any events without Reset, CW[c] is the value of the last SETW to c among them, or what it was where
there was none; and a boundary tick then loads it. -/
def Obligations.BoundaryLoadsLastWidth : Prop :=
  ∀ (s : State) (es : List Event) (c : Nat) (was : U16), s.wf → s.block.cw[c]? = some was →
    (∀ e ∈ es, isOrdinary e = true) →
    ∃ t, runEvents s es = .next t ∧ t.block.cw[c]? = some (lastWidth s.cfg c was es) ∧
      (t.block.pwmArmed = true → t.block.fc = 0#16 →
        ∃ u, exec .tickpwm t = .next u ∧ u.block.cp[c]? = some (lastWidth s.cfg c was es))

/-- R136: of two SETWs to channel c with no boundary tick between them, the first leaves no trace: with or without it,
the run ends in the same state and drives the same. Unarmed ticks between them, however many, are no boundary ticks. -/
def Obligations.SetwsWithinAFrameCoalesce : Prop :=
  ∀ (s : State) (es : List Event) (ch : Nat) (v₁ v₂ : Int),
    s.wf → (Instr.setw ch v₁).wf = true → (Instr.setw ch v₂).wf = true →
    (∀ e ∈ es, isOrdinary e = true) → occursWithin boundaryNext es.length (scheduled s es) = false →
    ∃ t u, runEvents s (eventOf (.setw ch v₁) :: es ++ [eventOf (.setw ch v₂)]) = .next t ∧
      runEvents s (es ++ [eventOf (.setw ch v₂)]) = .next u ∧ t.block = u.block ∧
      drivesOf s (eventOf (.setw ch v₁) :: es ++ [eventOf (.setw ch v₂)]) =
        drivesOf s (es ++ [eventOf (.setw ch v₂)])

/-- R99: a pulse on channel c. From ACC[c] = 0, armed, H PPM ticks that sample c high, with any other events but Reset
between them, then a PPM tick that samples c low: DW[c] is min (min H ACC_MAX - OFFSET) DW_MAX when min H ACC_MAX
exceeds OFFSET, and unchanged otherwise; and ACC[c] is 0. -/
def Obligations.PulseDecoding : Prop :=
  ∀ (s : State) (es : List Event) (c : Nat) (smp : Mask) (d : U16),
    s.wf → s.block.ppmArmed = true → s.block.acc[c]? = some 0#32 → s.block.dw[c]? = some d →
    (∀ e ∈ es, isOrdinary e = true) → samplesAll c true es → smp.getLsbD c = false →
    ∃ t d', runEvents s (es ++ [eventOf (.tickppm smp)]) = .next t ∧
      t.block.acc[c]? = some 0#32 ∧ t.block.dw[c]? = some d' ∧
      if s.cfg.offset < min (ppmTicks es) 4294967295 then
        d'.toNat = min (min (ppmTicks es) 4294967295 - s.cfg.offset) s.cfg.dwMax
      else d' = d

/-- R100: a pulse high for OFFSET + k ticks, 1 ≤ k ≤ DW_MAX, then low, then GETW: the answer is (OK, k). -/
def Obligations.PulseRoundTrip : Prop :=
  ∀ (s : State) (es : List Event) (c k : Nat) (smp : Mask),
    s.wf → s.block.ppmArmed = true → s.block.acc[c]? = some 0#32 →
    (∀ e ∈ es, isOrdinary e = true) → samplesAll c true es → smp.getLsbD c = false →
    ppmTicks es = s.cfg.offset + k → 1 ≤ k → k ≤ s.cfg.dwMax → s.cfg.offset + k ≤ 4294967295 →
    ∃ t, runEvents s (es ++ [eventOf (.tickppm smp), eventOf (.getw c)]) = .next t ∧
      t.response = some (BitVec.ofNat 32 k)

/-- R101: a pulse high for OFFSET ticks or fewer leaves DW[c] unchanged. -/
def Obligations.NoiseRejected : Prop :=
  ∀ (s : State) (es : List Event) (c : Nat) (smp : Mask),
    s.wf → s.block.ppmArmed = true → s.block.acc[c]? = some 0#32 →
    (∀ e ∈ es, isOrdinary e = true) → samplesAll c true es → smp.getLsbD c = false →
    ppmTicks es ≤ s.cfg.offset →
    ∃ t, runEvents s (es ++ [eventOf (.tickppm smp)]) = .next t ∧ t.block.dw[c]? = s.block.dw[c]?

/-- R102: with OFFSET = 100, channel 3 sampled high for 130 consecutive ticks then low gives `GETW 3` = 30. -/
def Obligations.ScenarioPulse130 : Prop :=
  ∀ (s : State) (smps : List Mask) (low : Mask),
    s.wf → s.cfg.offset = 100 → 30 ≤ s.cfg.dwMax → s.block.ppmArmed = true → s.block.acc[3]? = some 0#32 →
    smps.length = 130 → (∀ x ∈ smps, x.getLsbD 3 = true) → low.getLsbD 3 = false →
    ∃ t, runEvents s (smps.map (fun x => eventOf (.tickppm x)) ++ [eventOf (.tickppm low), eventOf (.getw 3)]) =
      .next t ∧ t.response = some 0x0000001E#32

/-- R22, R98: from a state where DW[c] = 0, whatever events but Reset follow, DW[c] is 0 exactly while no plausible
pulse has ended on c, and from 1 to DW_MAX after one has. -/
def Obligations.ZeroUntilFirstPlausiblePulse : Prop :=
  ∀ (s : State) (es : List Event) (c : Nat), s.wf → s.block.dw[c]? = some 0#16 → (∀ e ∈ es, isOrdinary e = true) →
    ∃ t d, runEvents s es = .next t ∧ t.block.dw[c]? = some d ∧ d.toNat ≤ s.cfg.dwMax ∧
      (1 ≤ d.toNat ↔ occursWithin (plausibleEnd c) es.length (scheduled s es) = true)

/-- R107: from Reset, before any INIT, whatever else has come but Reset, GETW of a valid channel answers (OK, 0). -/
def Obligations.GetwBeforeInitAnswersZero : Prop :=
  ∀ (c : Config) (es : List Event) (ch : Nat), c.legal → ch < c.nPpm →
    (∀ e ∈ es, isOrdinary e = true ∧ isInit e = false) →
    ∃ t, runEvents (State.resetWith c) (es ++ [eventOf (.getw ch)]) = .next t ∧ t.response = some 0x00000000#32

/-! ## The block and its history -/

/-- R19, R47 (2), R80, R82, R99, R106, R109, LITERAL_DECREMENT off: a block that stands where the events since Reset put
it stands there after every step, Reset and the idle step among them, with the step's event added to the history. -/
def Obligations.StepFollowsHistory : Prop :=
  ∀ (s t : State) (h : History), Follows h s → step s = .next t → Follows (historyNext s h) t

/-- R29: right after Reset, in every legal configuration with LITERAL_DECREMENT off, the block stands where the empty
history puts it. -/
def Obligations.ResetFollowsStart : Prop :=
  ∀ c : Config, c.legal → c.literalDecrement = false → Follows History.start (State.resetWith c)
end

