-- ==== Sys2Proof/Laws/State.lean ====
section
/-! SUPPORT. One lemma per field per update of State and Block, and per shared operation that ends an event. -/

namespace Sys2Proof.Machine

@[simp] theorem complete_cfg (s b r d) : (complete s b r d).cfg = s.cfg := rfl
@[simp] theorem complete_block (s b r d) : (complete s b r d).block = b := rfl
@[simp] theorem complete_schedule (s b r d) : (complete s b r d).schedule = s.schedule.tail := rfl
@[simp] theorem complete_response (s b r d) : (complete s b r d).response = r := rfl
@[simp] theorem complete_drive (s b r d) : (complete s b r d).drive = d := rfl
@[simp] theorem complete_draws (s b r d) : (complete s b r d).draws = s.draws := rfl

@[simp] theorem respondOk_cfg (s b v) : (respondOk s b v).cfg = s.cfg := rfl
@[simp] theorem respondOk_block (s b v) : (respondOk s b v).block = b := rfl
@[simp] theorem respondOk_schedule (s b v) : (respondOk s b v).schedule = s.schedule.tail := rfl
@[simp] theorem respondOk_response (s b v) : (respondOk s b v).response = some (responseWord .ok v) := rfl
@[simp] theorem respondOk_drive (s b v) : (respondOk s b v).drive = none := rfl
@[simp] theorem respondOk_draws (s b v) : (respondOk s b v).draws = s.draws := rfl

@[simp] theorem raise_cfg (s st) : (raise s st).cfg = s.cfg := rfl
@[simp] theorem raise_block (s st) : (raise s st).block = s.block := rfl
@[simp] theorem raise_schedule (s st) : (raise s st).schedule = s.schedule.tail := rfl
@[simp] theorem raise_response (s st) : (raise s st).response = some (responseWord st 0#16) := rfl
@[simp] theorem raise_drive (s st) : (raise s st).drive = none := rfl
@[simp] theorem raise_draws (s st) : (raise s st).draws = s.draws := rfl

@[simp] theorem silent_cfg (s b) : (silent s b).cfg = s.cfg := rfl
@[simp] theorem silent_block (s b) : (silent s b).block = b := rfl
@[simp] theorem silent_schedule (s b) : (silent s b).schedule = s.schedule.tail := rfl
@[simp] theorem silent_response (s b) : (silent s b).response = none := rfl
@[simp] theorem silent_drive (s b) : (silent s b).drive = none := rfl
@[simp] theorem silent_draws (s b) : (silent s b).draws = s.draws := rfl

@[simp] theorem driveOut_cfg (s b) : (driveOut s b).cfg = s.cfg := rfl
@[simp] theorem driveOut_block (s b) : (driveOut s b).block = b := rfl
@[simp] theorem driveOut_schedule (s b) : (driveOut s b).schedule = s.schedule.tail := rfl
@[simp] theorem driveOut_response (s b) : (driveOut s b).response = none := rfl
@[simp] theorem driveOut_drive (s b) : (driveOut s b).drive = some (driveMasks s.cfg b.out) := rfl
@[simp] theorem driveOut_draws (s b) : (driveOut s b).draws = s.draws := rfl

@[simp] theorem illegalCommand_cfg (s) : (illegalCommand s).cfg = s.cfg := rfl
@[simp] theorem illegalCommand_block (s) : (illegalCommand s).block = s.block := rfl
@[simp] theorem illegalCommand_schedule (s) : (illegalCommand s).schedule = s.schedule.tail := rfl
@[simp] theorem illegalCommand_drive (s) : (illegalCommand s).drive = none := rfl
@[simp] theorem illegalCommand_draws (s) : (illegalCommand s).draws = s.draws := rfl
@[simp] theorem illegalCommand_response (s) : (illegalCommand s).response = some 0x20000000#32 := rfl

@[simp] theorem resetEvent_cfg (s) : (resetEvent s).cfg = s.cfg := rfl
@[simp] theorem resetEvent_block (s) :
    (resetEvent s).block = resetBlock s.cfg (Config.outInit s.draws) := rfl
@[simp] theorem resetEvent_schedule (s) : (resetEvent s).schedule = s.schedule.tail := rfl
@[simp] theorem resetEvent_response (s) : (resetEvent s).response = none := rfl
@[simp] theorem resetEvent_drive (s) : (resetEvent s).drive = none := rfl
@[simp] theorem resetEvent_draws (s) : (resetEvent s).draws = s.draws + 1 := rfl

@[simp] theorem idle_cfg (s) : (idle s).cfg = s.cfg := rfl
@[simp] theorem idle_block (s) : (idle s).block = s.block := rfl
@[simp] theorem idle_schedule (s) : (idle s).schedule = s.schedule.tail := rfl
@[simp] theorem idle_response (s) : (idle s).response = none := rfl
@[simp] theorem idle_drive (s) : (idle s).drive = none := rfl
@[simp] theorem idle_draws (s) : (idle s).draws = s.draws := rfl

@[simp] theorem resetBlock_ctrl (c o) : (resetBlock c o).ctrl = 0#2 := rfl
@[simp] theorem resetBlock_fc (c o) : (resetBlock c o).fc = 0#16 := rfl
@[simp] theorem resetBlock_out (c o) : (resetBlock c o).out = o &&& ones c.nPwm := rfl
@[simp] theorem resetBlock_cw (c o) : (resetBlock c o).cw = List.replicate c.nPwm 0#16 := rfl
@[simp] theorem resetBlock_cp (c o) : (resetBlock c o).cp = List.replicate c.nPwm 0#16 := rfl
@[simp] theorem resetBlock_acc (c o) : (resetBlock c o).acc = List.replicate c.nPpm 0#32 := rfl
@[simp] theorem resetBlock_dw (c o) : (resetBlock c o).dw = List.replicate c.nPpm 0#16 := rfl

@[simp] theorem writeCw_ctrl (b ch v) : (Block.writeCw b ch v).ctrl = b.ctrl := rfl
@[simp] theorem writeCw_fc (b ch v) : (Block.writeCw b ch v).fc = b.fc := rfl
@[simp] theorem writeCw_out (b ch v) : (Block.writeCw b ch v).out = b.out := rfl
@[simp] theorem writeCw_cw (b ch v) : (Block.writeCw b ch v).cw = b.cw.set ch v := rfl
@[simp] theorem writeCw_cp (b ch v) : (Block.writeCw b ch v).cp = b.cp := rfl
@[simp] theorem writeCw_acc (b ch v) : (Block.writeCw b ch v).acc = b.acc := rfl
@[simp] theorem writeCw_dw (b ch v) : (Block.writeCw b ch v).dw = b.dw := rfl

end Sys2Proof.Machine
end

