-- ==== Sys2Proof/Laws/Engines.lean ====
section
/-! SUPPORT. One lemma per field per tick of an engine. -/

namespace Sys2Proof.Machine

@[simp] theorem pwmBoundary_ctrl (c b) : (pwmBoundary c b).ctrl = b.ctrl := rfl
@[simp] theorem pwmBoundary_fc (c b) : (pwmBoundary c b).fc = frameReload c := rfl
@[simp] theorem pwmBoundary_out (c b) : (pwmBoundary c b).out = 0#16 := rfl
@[simp] theorem pwmBoundary_cw (c b) : (pwmBoundary c b).cw = b.cw := rfl
@[simp] theorem pwmBoundary_cp (c b) : (pwmBoundary c b).cp = b.cw := rfl
@[simp] theorem pwmBoundary_acc (c b) : (pwmBoundary c b).acc = b.acc := rfl
@[simp] theorem pwmBoundary_dw (c b) : (pwmBoundary c b).dw = b.dw := rfl

@[simp] theorem pwmCount_ctrl (c b) : (pwmCount c b).ctrl = b.ctrl := rfl
@[simp] theorem pwmCount_fc (c b) : (pwmCount c b).fc = b.fc - 1#16 := rfl
@[simp] theorem pwmCount_out (c b) : (pwmCount c b).out = maskOf (b.cp.map (channelHigh c)) := rfl
@[simp] theorem pwmCount_cw (c b) : (pwmCount c b).cw = b.cw := rfl
@[simp] theorem pwmCount_cp (c b) : (pwmCount c b).cp = b.cp.map nextPeriod := rfl
@[simp] theorem pwmCount_acc (c b) : (pwmCount c b).acc = b.acc := rfl
@[simp] theorem pwmCount_dw (c b) : (pwmCount c b).dw = b.dw := rfl

theorem pwmTick_boundary (c : Config) (b : Block) (h : b.fc = 0#16) : pwmTick c b = pwmBoundary c b := if_pos h
theorem pwmTick_count (c : Config) (b : Block) (h : b.fc ≠ 0#16) : pwmTick c b = pwmCount c b := if_neg h

@[simp] theorem pwmTick_ctrl (c b) : (pwmTick c b).ctrl = b.ctrl := by unfold pwmTick; split <;> rfl
@[simp] theorem pwmTick_cw (c b) : (pwmTick c b).cw = b.cw := by unfold pwmTick; split <;> rfl
@[simp] theorem pwmTick_acc (c b) : (pwmTick c b).acc = b.acc := by unfold pwmTick; split <;> rfl
@[simp] theorem pwmTick_dw (c b) : (pwmTick c b).dw = b.dw := by unfold pwmTick; split <;> rfl

@[simp] theorem ppmTick_ctrl (c s b) : (ppmTick c s b).ctrl = b.ctrl := rfl
@[simp] theorem ppmTick_fc (c s b) : (ppmTick c s b).fc = b.fc := rfl
@[simp] theorem ppmTick_out (c s b) : (ppmTick c s b).out = b.out := rfl
@[simp] theorem ppmTick_cw (c s b) : (ppmTick c s b).cw = b.cw := rfl
@[simp] theorem ppmTick_cp (c s b) : (ppmTick c s b).cp = b.cp := rfl

/-- ACC[ch] after an armed PPM tick. -/
theorem ppmTick_acc_get (c : Config) (smp : Mask) (b : Block) (ch : Nat) :
    (ppmTick c smp b).acc[ch]? = b.acc[ch]?.map (nextAcc (sampleBit smp ch)) := by
  simp [ppmTick, List.getElem?_mapIdx]

/-- DW[ch] after an armed PPM tick. -/
theorem ppmTick_dw_get (c : Config) (smp : Mask) (b : Block) (ch : Nat) :
    (ppmTick c smp b).dw[ch]? =
      b.dw[ch]?.map (nextDw c (sampleBit smp ch) (b.acc.getD ch 0#32)) := by
  simp [ppmTick, List.getElem?_mapIdx]

@[simp] theorem ppmTick_acc_length (c s b) : (ppmTick c s b).acc.length = b.acc.length := by simp [ppmTick]
@[simp] theorem ppmTick_dw_length (c s b) : (ppmTick c s b).dw.length = b.dw.length := by simp [ppmTick]

end Sys2Proof.Machine
end

