-- ==== Sys2Proof/Laws/Operands.lean ====
section
/-! SUPPORT. What each computation of Machine/Operands.lean gives, in exact numbers. -/

namespace Sys2Proof.Machine

/-- Bit c of `ones n`, for the widths R6 allows. -/
theorem getLsbD_ones (n c : Nat) (hn : n ≤ 16) : (ones n).getLsbD c = decide (c < n) := by
  rw [ones, ← Nat.mod_eq_of_lt (show 2 ^ n - 1 < 2 ^ 16 by
    have := Nat.pow_le_pow_right (show 0 < 2 by omega) hn
    have := Nat.two_pow_pos n
    omega), ← BitVec.toNat_ofNat, BitVec.ofNat_toNat, BitVec.setWidth_eq]
  simp only [BitVec.getLsbD_ofNat, Nat.testBit_two_pow_sub_one]
  by_cases h : c < n <;> simp [h]; omega

/-- Bit c of `maskOf` is the c-th level. -/
theorem getLsbD_maskOf (levels : List Bool) (c : Nat) (hc : c < 16) :
    (maskOf levels).getLsbD c = levels.getD c false := by
  induction levels generalizing c with
  | nil => simp [maskOf]
  | cons l ls ih =>
    cases c with
    | zero => cases l <;> simp [maskOf]
    | succ c =>
      have h := ih c (by omega)
      have hc' : c < 16 := by omega
      cases l <;> simp [maskOf, hc] <;> simpa [BitVec.getLsbD_eq_getElem hc'] using h

/-- Above the list's length `maskOf` has no bit. -/
theorem getLsbD_maskOf_ge (levels : List Bool) (c : Nat) (hc : levels.length ≤ c) :
    (maskOf levels).getLsbD c = false := by
  by_cases h : c < 16
  · rw [getLsbD_maskOf levels c h]; simp [hc]
  · exact BitVec.getLsbD_of_ge _ _ (by omega)

/-- A mask of at most N_PWM levels stays within `ones(N_PWM)`. -/
theorem maskOf_within (levels : List Bool) (n : Nat) (hn : n ≤ 16) (h : levels.length ≤ n) :
    maskOf levels &&& ~~~ones n = 0#16 := by
  apply BitVec.eq_of_getLsbD_eq
  intro c hc
  by_cases hcn : c < n
  · simp [getLsbD_ones n c hn, hcn]
  · simp [getLsbD_maskOf_ge levels c (by omega)]

/-- The clamp lies between its bounds. -/
theorem clamp_bounds (v lo hi : Int) (h : lo ≤ hi) : lo ≤ clamp v lo hi ∧ clamp v lo hi ≤ hi := by
  unfold clamp; split
  · omega
  · split <;> omega

/-- The stored width is the clamp of R71, exactly. -/
theorem clampw_toNat (c : Config) (hc : c.legal) (v : Int) :
    ((clampw c v).toNat : Int) = clamp v 0 ((c.f : Int) - 1) := by
  have hf := hc.2.2.1
  have hb := clamp_bounds v 0 ((c.f : Int) - 1) (by omega)
  simp only [clampw, BitVec.toNat_ofInt]
  omega

/-- The stored width lies in 0 .. F - 1 (R16). -/
theorem clampw_lt (c : Config) (hc : c.legal) (v : Int) : (clampw c v).toNat < c.f := by
  have hf := hc.2.2.1
  have h := clampw_toNat c hc v
  have hb := clamp_bounds v 0 ((c.f : Int) - 1) (by omega)
  omega

/-- FC after a boundary tick is F - 1 (R19). -/
theorem frameReload_toNat (c : Config) (hc : c.legal) : (frameReload c).toNat = c.f - 1 := by
  have hf := hc.2.2.1
  simp only [frameReload, BitVec.toNat_ofNat]
  omega

/-- A 16-bit counter that is nonzero counts down by one. -/
theorem toNat_pred (x : U16) (h : x ≠ 0#16) : (x - 1#16).toNat = x.toNat - 1 := by
  have h0 : x.toNat ≠ 0 := fun hx => h (BitVec.eq_of_toNat_eq (by simpa using hx))
  have := x.isLt
  simp only [BitVec.toNat_sub, BitVec.toNat_ofNat]
  omega

/-- The period counts down by one and stops at 0 (R78). -/
theorem nextPeriod_toNat (x : U16) : (nextPeriod x).toNat = x.toNat - 1 := by
  unfold nextPeriod
  split
  · next h => simp [h]
  · next h => exact toNat_pred x h

/-- The line is high exactly when the period is nonzero at the start of the tick (R77). -/
theorem channelHigh_normative (c : Config) (hc : c.literalDecrement = false) (x : U16) :
    channelHigh c x = decide (0 < x.toNat) := by
  simp only [channelHigh, hc, Bool.false_eq_true, if_false]
  rw [Bool.eq_iff_iff]
  simp only [bne_iff_ne, ne_eq, decide_eq_true_eq, Nat.pos_iff_ne_zero]
  constructor
  · intro h hx; exact h (BitVec.eq_of_toNat_eq (by simpa using hx))
  · rintro h rfl; simp at h

/-- A high sample counts up to ACC_MAX; a low sample clears (R92, R93). -/
theorem nextAcc_toNat (high : Bool) (a : U32) :
    (nextAcc high a).toNat = if high then min (a.toNat + 1) Config.accMax else 0 := by
  unfold nextAcc Config.accMax
  cases high
  · simp
  · simp only [if_true, BitVec.toNat_ofNat]; omega

/-- DW is unchanged unless a plausible pulse ends (R94). -/
theorem nextDw_unchanged (c : Config) (high : Bool) (a : U32) (d : U16) (h : pulseEnds c high a = false) :
    nextDw c high a d = d := by simp [nextDw, h]

/-- DW where a plausible pulse ends (R95). -/
theorem nextDw_toNat (c : Config) (hc : c.legal) (high : Bool) (a : U32) (d : U16)
    (h : pulseEnds c high a = true) : (nextDw c high a d).toNat = min (a.toNat - c.offset) c.dwMax := by
  have hd := hc.2.2.2.2.1
  simp only [nextDw, h, if_true, BitVec.toNat_ofNat]
  omega

end Sys2Proof.Machine
end

