-- ==== Sys2Proof/Laws/PerInstr.lean ====
section
/-! SUPPORT. Statements about every operation as syntax, one lemma per constructor. -/

namespace Sys2Proof.Laws.EncodesInItsRow

/-- The word of an operation matches the row of its mnemonic in the opcode map (R56), whatever its operands. -/
def Statement (i : Instr) : Prop := (opcodeRow i.mnemonic).matches (encode i)

/-- Bits above VAL and CH are fixed by the operation's row. -/
theorem commandWord_high (op : BitVec 4) (ch : BitVec 8) (val : BitVec 16) :
    commandWord op ch val &&& 0xFF000000#32 = op ++ 0#28 := by
  apply BitVec.eq_of_getLsbD_eq
  intro k hk
  simp only [commandWord, BitVec.getLsbD_and, BitVec.getLsbD_append]
  have : k < 32 := hk
  interval_cases k <;> simp

theorem setw (ch : Nat) (val : Int) : Statement (.setw ch val) := by
  simp only [Statement, OpcodeRow.matches, Instr.mnemonic, opcodeRow, encode, commandWord_high]
  decide

theorem getw (ch : Nat) : Statement (.getw ch) := by
  simp only [Statement, OpcodeRow.matches, Instr.mnemonic, opcodeRow, encode]
  generalize BitVec.ofNat 8 ch = x
  revert x
  decide

theorem init : Statement .init := by
  simp only [Statement, OpcodeRow.matches, Instr.mnemonic, opcodeRow, encode]
  decide

theorem tickpwm : Statement .tickpwm := by
  simp only [Statement, OpcodeRow.matches, Instr.mnemonic, opcodeRow, encode]
  decide

theorem tickppm (s : Mask) : Statement (.tickppm s) := by
  simp only [Statement, OpcodeRow.matches, Instr.mnemonic, opcodeRow, encode]
  apply BitVec.eq_of_getLsbD_eq
  intro k hk
  simp only [commandWord, BitVec.getLsbD_and, BitVec.getLsbD_append]
  have : k < 32 := hk
  interval_cases k <;> simp

end Sys2Proof.Laws.EncodesInItsRow
end

