-- ==== Sys2Proof/Laws/Step.lean ====
section
/-! SUPPORT. Said once: everything an operation, a request and a step can do. -/

namespace Sys2Proof.Machine

theorem exec_setw_valid (ch : Nat) (val : Int) (s : State) (h : ch < s.cfg.nPwm) :
    exec (.setw ch val) s = .next (respondOk s (s.block.writeCw ch (clampw s.cfg val)) 0#16) := by
  simp [exec, execSetw, validPwm, h]

theorem exec_setw_invalid (ch : Nat) (val : Int) (s : State) (h : ¬ ch < s.cfg.nPwm) :
    exec (.setw ch val) s = .next (raise s .invalidChannel) := by
  simp [exec, execSetw, validPwm, h]

theorem exec_getw_valid (ch : Nat) (s : State) (h : ch < s.cfg.nPpm) :
    exec (.getw ch) s = .next (respondOk s s.block (s.block.readDw ch)) := by
  simp [exec, execGetw, validPpm, h]

theorem exec_getw_invalid (ch : Nat) (s : State) (h : ¬ ch < s.cfg.nPpm) :
    exec (.getw ch) s = .next (raise s .invalidChannel) := by
  simp [exec, execGetw, validPpm, h]

theorem exec_init (s : State) :
    exec .init s = .next (respondOk s { s.block with ctrl := armBoth s.block.ctrl } 0#16) := rfl

theorem exec_tickpwm_armed (s : State) (h : s.block.pwmArmed = true) :
    exec .tickpwm s = .next (driveOut s (pwmTick s.cfg s.block)) := by
  simp [exec, execTickpwm, h]

theorem exec_tickpwm_unarmed (s : State) (h : s.block.pwmArmed = false) :
    exec .tickpwm s = .next (silent s s.block) := by
  simp [exec, execTickpwm, h]

theorem exec_tickppm_armed (smp : Mask) (s : State) (h : s.block.ppmArmed = true) :
    exec (.tickppm smp) s = .next (silent s (ppmTick s.cfg smp s.block)) := by
  simp [exec, execTickppm, h]

theorem exec_tickppm_unarmed (smp : Mask) (s : State) (h : s.block.ppmArmed = false) :
    exec (.tickppm smp) s = .next (silent s s.block) := by
  simp [exec, execTickppm, h]

/-- Both armed bits are set by INIT (R110). -/
theorem armBoth_eq (x : BitVec 2) : armBoth x = 3#2 := by
  revert x; decide

/-- The block after an operation: the only ways an operation changes it (R26). -/
def blockAfter (c : Config) (i : Instr) (b : Block) : Block :=
  match i with
  | .setw ch val => if ch < c.nPwm then b.writeCw ch (clampw c val) else b
  | .getw _ => b
  | .init => { b with ctrl := armBoth b.ctrl }
  | .tickpwm => if b.pwmArmed then pwmTick c b else b
  | .tickppm smp => if b.ppmArmed then ppmTick c smp b else b

/-- Every operation completes, takes its event from the schedule, and leaves `blockAfter`. -/
theorem exec_completes (i : Instr) (s : State) :
    ∃ t, exec i s = .next t ∧ t.cfg = s.cfg ∧ t.draws = s.draws ∧ t.schedule = s.schedule.tail ∧
      t.block = blockAfter s.cfg i s.block := by
  cases i with
  | setw ch val =>
    by_cases h : ch < s.cfg.nPwm
    · exact ⟨_, exec_setw_valid ch val s h, rfl, rfl, rfl, by simp [blockAfter, h]⟩
    · exact ⟨_, exec_setw_invalid ch val s h, rfl, rfl, rfl, by simp [blockAfter, h]⟩
  | getw ch =>
    by_cases h : ch < s.cfg.nPpm
    · exact ⟨_, exec_getw_valid ch s h, rfl, rfl, rfl, rfl⟩
    · exact ⟨_, exec_getw_invalid ch s h, rfl, rfl, rfl, rfl⟩
  | init => exact ⟨_, exec_init s, rfl, rfl, rfl, rfl⟩
  | tickpwm =>
    cases h : s.block.pwmArmed
    · exact ⟨_, exec_tickpwm_unarmed s h, rfl, rfl, rfl, by simp [blockAfter, h]⟩
    · exact ⟨_, exec_tickpwm_armed s h, rfl, rfl, rfl, by simp [blockAfter, h]⟩
  | tickppm smp =>
    cases h : s.block.ppmArmed
    · exact ⟨_, exec_tickppm_unarmed smp s h, rfl, rfl, rfl, by simp [blockAfter, h]⟩
    · exact ⟨_, exec_tickppm_armed smp s h, rfl, rfl, rfl, by simp [blockAfter, h]⟩

theorem step_nil (s : State) (hc : s.cfg.legal) (h : s.schedule = []) : step s = .next (idle s) := by
  unfold step; rw [if_pos hc, h]

theorem step_cons (s : State) (hc : s.cfg.legal) (e : Event) (rest : List Event) (h : s.schedule = e :: rest) :
    step s = runRequest (decodeEvent e) s := by
  unfold step; rw [if_pos hc, h]

theorem step_illegal (s : State) (hc : ¬ s.cfg.legal) : step s = .refused .illegalConfiguration := by
  unfold step; rw [if_neg hc]

/-- The block after an event that exists in the hardware. -/
def blockAfterEvent (c : Config) (draw : Mask) (e : Event) (b : Block) : Block :=
  match decodeEvent e with
  | .op i => blockAfter c i b
  | .illegalCommand _ => b
  | .malformedStrobe _ => b
  | .reset => resetBlock c draw

/-- A step with a real event next: it completes, in a legal configuration it keeps, and leaves `blockAfterEvent`. -/
theorem step_completes (s : State) (hc : s.cfg.legal) (e : Event) (rest : List Event)
    (h : s.schedule = e :: rest) (hr : isReal e = true) :
    ∃ t, step s = .next t ∧ t.cfg = s.cfg ∧ t.schedule = rest ∧
      t.block = blockAfterEvent s.cfg (Config.outInit s.draws) e s.block := by
  rw [step_cons s hc e rest h]
  unfold blockAfterEvent
  cases hd : decodeEvent e with
  | op i =>
    obtain ⟨t, h1, h2, -, h4, h5⟩ := exec_completes i s
    exact ⟨t, h1, h2, by rw [h4, h]; rfl, h5⟩
  | illegalCommand why => exact ⟨_, rfl, rfl, by simp [h], rfl⟩
  | malformedStrobe why => simp [isReal, hd] at hr
  | reset => exact ⟨_, rfl, rfl, by simp [h], rfl⟩

/-- Everything a step that answers a next state did. -/
theorem step_cases (s t : State) (h : step s = .next t) :
    s.cfg.legal ∧ t.cfg = s.cfg ∧
    ((s.schedule = [] ∧ t.schedule = [] ∧ t.block = s.block ∧ t = idle s) ∨
      ∃ e rest, s.schedule = e :: rest ∧ isReal e = true ∧ t.schedule = rest ∧
        t.block = blockAfterEvent s.cfg (Config.outInit s.draws) e s.block) := by
  by_cases hc : s.cfg.legal
  · refine ⟨hc, ?_⟩
    cases hs : s.schedule with
    | nil =>
      rw [step_nil s hc hs] at h
      cases h
      exact ⟨rfl, .inl ⟨rfl, by simp [hs], rfl, rfl⟩⟩
    | cons e rest =>
      cases hr : isReal e with
      | false =>
        rw [step_cons s hc e rest hs] at h
        cases hd : decodeEvent e <;> simp [isReal, hd] at hr
        simp [hd, runRequest] at h
      | true =>
        obtain ⟨t', h1, h2, h3, h4⟩ := step_completes s hc e rest hs hr
        rw [h1] at h
        cases h
        exact ⟨h2, .inr ⟨e, rest, rfl, hr, h3, h4⟩⟩
  · rw [step_illegal s hc] at h; cases h

end Sys2Proof.Machine
end

