-- ==== Sys2Proof/Laws/Run.lean ====
section
/-! SUPPORT. Runs: a run of events that are no Reset is a fold of `blockAfterEvent` over the block. -/

namespace Sys2Proof.Machine

@[simp] theorem scheduled_cfg (s es) : (scheduled s es).cfg = s.cfg := rfl
@[simp] theorem scheduled_block (s es) : (scheduled s es).block = s.block := rfl
@[simp] theorem scheduled_schedule (s es) : (scheduled s es).schedule = es := rfl
@[simp] theorem scheduled_draws (s es) : (scheduled s es).draws = s.draws := rfl
@[simp] theorem scheduled_self (s : State) : scheduled s s.schedule = s := rfl
@[simp] theorem scheduled_scheduled (s es es') : scheduled (scheduled s es) es' = scheduled s es' := rfl

theorem runEvents_nil (s : State) : runEvents s [] = .next (scheduled s []) := rfl

/-- A run goes one event at a time. -/
theorem runEvents_cons (s t : State) (e : Event) (es : List Event)
    (h : step (scheduled s (e :: es)) = .next t) : runEvents s (e :: es) = runEvents t es := by
  have hs : t.schedule = es := by
    obtain ⟨-, -, h' | ⟨e', rest, h1, -, h2, -⟩⟩ := step_cases _ _ h
    · simp at h'
    · simp only [scheduled_schedule, List.cons.injEq] at h1
      rw [h2, h1.2]
  have ht : scheduled t es = t := by rw [← hs]; rfl
  simp [runEvents, runFor, h, ht]

/-- A trace goes one event at a time. -/
theorem drivesOf_cons (s t : State) (e : Event) (es : List Event)
    (h : step (scheduled s (e :: es)) = .next t) :
    drivesOf s (e :: es) = t.drive.toList ++ drivesOf t es := by
  have hs : t.schedule = es := by
    obtain ⟨-, -, h' | ⟨e', rest, h1, -, h2, -⟩⟩ := step_cases _ _ h
    · simp at h'
    · simp only [scheduled_schedule, List.cons.injEq] at h1
      rw [h2, h1.2]
  have ht : scheduled t es = t := by rw [← hs]; rfl
  simp only [drivesOf, List.length_cons, trace, h, ht, List.filterMap_cons]
  cases t.drive <;> rfl

theorem isOrdinary_iff (e : Event) : isOrdinary e = true ↔ isReal e = true ∧ isReset e = false := by
  simp [isOrdinary]

/-- Without a Reset the draw does not matter. -/
theorem blockAfterEvent_ordinary (c : Config) (d d' : Mask) (e : Event) (b : Block) (h : isReset e = false) :
    blockAfterEvent c d e b = blockAfterEvent c d' e b := by
  unfold blockAfterEvent
  cases hd : decodeEvent e <;> simp [isReset, hd] at h ⊢

/-- The block after events without a Reset. -/
def blockAfterEvents (c : Config) (es : List Event) (b : Block) : Block :=
  es.foldl (fun b e => blockAfterEvent c 0#16 e b) b

@[simp] theorem blockAfterEvents_nil (c b) : blockAfterEvents c [] b = b := rfl
@[simp] theorem blockAfterEvents_cons (c e es b) :
    blockAfterEvents c (e :: es) b = blockAfterEvents c es (blockAfterEvent c 0#16 e b) := rfl
theorem blockAfterEvents_append (c es es' b) :
    blockAfterEvents c (es ++ es') b = blockAfterEvents c es' (blockAfterEvents c es b) :=
  List.foldl_append ..

/-- A run of ordinary events completes, keeps the configuration, and leaves `blockAfterEvents`. -/
theorem runEvents_ordinary (s : State) (hc : s.cfg.legal) (es : List Event)
    (h : ∀ e ∈ es, isOrdinary e = true) :
    ∃ t, runEvents s es = .next t ∧ t.cfg = s.cfg ∧ t.schedule = [] ∧
      t.block = blockAfterEvents s.cfg es s.block := by
  induction es generalizing s with
  | nil => exact ⟨_, runEvents_nil s, rfl, rfl, rfl⟩
  | cons e es ih =>
    obtain ⟨hr, hn⟩ := (isOrdinary_iff e).1 (h e (by simp))
    obtain ⟨t, h1, h2, h3, h4⟩ := step_completes (scheduled s (e :: es)) hc e es rfl hr
    obtain ⟨u, k1, k2, k3, k4⟩ := ih t (by rw [h2]; exact hc) (fun x hx => h x (by simp [hx]))
    refine ⟨u, by rw [runEvents_cons s t e es h1, k1], by rw [k2, h2]; rfl, k3, ?_⟩
    rw [k4, h2, h4, blockAfterEvents_cons]
    simp only [scheduled_cfg, scheduled_block]
    rw [blockAfterEvent_ordinary _ _ 0#16 e _ hn]

theorem occursWithin_zero (p : State → Bool) (s : State) : occursWithin p 0 s = false := rfl

/-- Something occurs at once, or from the next state on. -/
theorem occursWithin_succ (p : State → Bool) (k : Nat) (s t : State) (h : step s = .next t) :
    occursWithin p (k + 1) s = (p s || occursWithin p k t) := by
  simp [occursWithin, h]

theorem historyNext_nil (s : State) (h : History) (hs : s.schedule = []) : historyNext s h = h := by
  simp [historyNext, hs]

theorem historyNext_cons (s : State) (h : History) (e : Event) (rest : List Event) (hs : s.schedule = e :: rest) :
    historyNext s h = h.next s.cfg e := by
  simp [historyNext, hs]

theorem next_op (c : Config) (e : Event) (h : History) (i : Instr) (hd : decodeEvent e = .op i) :
    h.next c e = h.afterOp c i := by
  simp only [History.next, hd]

theorem next_reset (c : Config) (h : History) : h.next c .reset = History.start := rfl

end Sys2Proof.Machine
end

