-- ==== Sys2Proof/Tests/Slice0.lean ====
section
/-! SUPPORT. Tests from the spec's worked encodings (R67) and vectors (95_test_vectors.md), and a witness of the
hypotheses of every statement that has any. -/

namespace Sys2Proof.Tests

open Sys2Proof Sys2Proof.Machine

/-! ## Well-formedness: an operand outside its range produces no word (R65) -/

theorem test_setw_channel_256_refused : assemble (.setw 256 0) = none := by decide
theorem test_setw_value_above_refused : assemble (.setw 0 32768) = none := by decide
theorem test_setw_value_below_refused : assemble (.setw 0 (-32769)) = none := by decide
theorem test_getw_channel_256_refused : assemble (.getw 256) = none := by decide
theorem test_operands_at_the_bounds_accepted :
    assemble (.setw 255 (-32768)) = some 0x10FF8000#32 ∧ assemble (.getw 255) = some 0x20FF0000#32 := by decide

/-! ## Decoding: words of R67, bit by bit OP RSV CH VAL -/

theorem test_decode_setw : decodeHost (0b0001#4 ++ 0b0000#4 ++ 0b00000001#8 ++ 0b1111111111111011#16) =
    .op (.setw 1 (-5)) := by decide
theorem test_decode_getw : decodeHost (0b0010#4 ++ 0b0000#4 ++ 0b00000011#8 ++ 0b0000000000000000#16) =
    .op (.getw 3) := by decide
theorem test_decode_init : decodeHost (0b0011#4 ++ 0b0000#4 ++ 0b00000000#8 ++ 0b0000000000000000#16) =
    .op .init := by decide
theorem test_decode_tickpwm : decodePwm (0b0100#4 ++ 0b0000#4 ++ 0b00000000#8 ++ 0b0000000000000000#16) =
    .op .tickpwm := by decide
theorem test_decode_tickppm : decodePpm (0b0101#4 ++ 0b0000#4 ++ 0b00000000#8 ++ 0b0000000000001000#16) =
    .op (.tickppm 0x0008#16) := by decide
theorem test_table_words : decodeTableWord 32 0x10000096 = some (.setw 0 150) ∧
    decodeTableWord 32 0x20FF0000 = some (.getw 255) ∧ decodeTableWord 32 0x30000000 = some .init ∧
    decodeTableWord 32 0x40000000 = some .tickpwm ∧ decodeTableWord 32 0x500000FF = some (.tickppm 0x00FF#16) ∧
    decodeTableWord 32 0x60000000 = none := by decide
/-- V-D1 to V-D13. -/
theorem test_illegal_words : ∀ w ∈ [0x00000000#32, 0x11000000#32, 0x1F000000#32, 0x40000000#32, 0x50000008#32,
    0x60000000#32, 0x7FFFFFFF#32, 0xF0000000#32, 0x20000001#32, 0x2100FFFF#32, 0x30000001#32, 0x30010000#32,
    0x31000000#32], ∀ i, decodeHost w ≠ .op i := by
  intro w hw i
  simp only [List.mem_cons, List.not_mem_nil, or_false] at hw
  rcases hw with rfl | rfl | rfl | rfl | rfl | rfl | rfl | rfl | rfl | rfl | rfl | rfl | rfl <;>
    (intro h; cases h)
/-- The disassembly of 0x1001FFFB in 95_test_vectors.md 2.1. -/
theorem test_listing_setw : printSource (disassemble 0x1001FFFB#32) =
    ['S', 'E', 'T', 'W', ' ', '1', ',', ' ', '-', '5'] := by decide
/-- P3 steps 3 and 18: a port prefix, and REP. -/
theorem test_listing_lines :
    assembleLine (kwHost ++ ' ' :: kwTickpwm) = some [.host 0x40000000#32] ∧
    assembleLine (kwRep ++ [' ', '2', ',', ' '] ++ kwTickppm ++ [' ', '0', 'x', '0', '0', '0', '8', ' ', ';', 'x']) =
      some [.ppmStrobe 0x50000008#32, .ppmStrobe 0x50000008#32] := by decide

/-! ## One step each, on small states -/

/-- The next state of a result. -/
def next? (r : Result) : Option State :=
  match r with
  | .next s => some s
  | _ => none

/-- A configuration with F = 5, OFFSET = 3, two PWM and two PPM channels. -/
def smallCfg : Config := { nPwm := 2, nPpm := 2, f := 5, offset := 3, dwMax := 20, tickUs := 20 }

/-- A state of that configuration: armed as told, with the given FC. -/
def small (ctrl : BitVec 2) (fc : U16) : State :=
  { cfg := smallCfg
    block := { ctrl := ctrl, fc := fc, out := 0b10#16, cw := [2#16, 4#16], cp := [1#16, 0#16], acc := [0#32, 5#32],
               dw := [7#16, 0#16] }
    schedule := []
    response := none
    drive := none
    draws := 1 }

/-- V-S2, V-S3 (F = 5): -5 clamps to 0, 32767 to F - 1. -/
theorem test_setw_clamps : ((next? (exec (.setw 0 (-5)) (small 0 0))).map (·.block.cw)) = some [0#16, 4#16] ∧
    ((next? (exec (.setw 1 32767) (small 0 0))).map (·.block.cw)) = some [2#16, 4#16] := by decide
/-- V-D14: an invalid channel. -/
theorem test_setw_invalid : (next? (exec (.setw 2 1) (small 0 0))).map (fun t => (t.block.cw, t.response)) =
    some ([2#16, 4#16], some 0x10000000#32) := by decide
theorem test_getw : (next? (exec (.getw 0) (small 0 0))).map (·.response) = some (some 7#32) := by decide
/-- V-D16. -/
theorem test_getw_invalid : (next? (exec (.getw 2) (small 0 0))).map (·.response) = some (some 0x10000000#32) := by
  decide
/-- V-I1. -/
theorem test_init : (next? (exec .init (small 0 3))).map (fun t => (t.block.ctrl, t.block.fc, t.response)) =
    some (0b11#2, 3#16, some 0#32) := by decide
/-- P1, k = 5 (a boundary tick) and a tick after it: CP [2, 4] → [1, 3], OUT 11. -/
theorem test_tickpwm_boundary : (next? (exec .tickpwm (small 1 0))).map (fun t => (t.block.fc, t.block.cp, t.drive)) =
    some (4#16, [2#16, 4#16], some { setMask := 0#16, clearMask := 0b11#16 }) := by decide
theorem test_tickpwm_count : (next? (exec .tickpwm (small 1 3))).map (fun t => (t.block.fc, t.block.cp, t.drive)) =
    some (2#16, [0#16, 0#16], some { setMask := 0b01#16, clearMask := 0b10#16 }) := by decide
/-- P2, step 3: 5 > 3 decodes 2; the other channel counts up. -/
theorem test_tickppm_decodes : (next? (exec (.tickppm 0x0001#16) (small 2 0))).map (fun t => (t.block.acc, t.block.dw)) =
    some ([1#32, 0#32], [7#16, 2#16]) := by decide
/-- V-P9: no wrap at ACC_MAX. -/
theorem test_acc_saturates : nextAcc true 0xFFFFFFFF#32 = 0xFFFFFFFF#32 ∧ nextAcc true 0xFFFFFFFE#32 = 0xFFFFFFFF#32 := by
  decide
/-- P3 step 1 and step 3: a reserved OP, and a tick OP on the host port. -/
theorem test_illegal_command : (next? (step { small 1 0 with schedule := [.host 0x40000000#32] })).map
    (fun t => (t.block, t.response)) = some ((small 1 0).block, some 0x20000000#32) := by decide
/-- V-R1. -/
theorem test_reset_event : (next? (step { small 3 4 with schedule := [.reset] })).map
    (fun t => (t.block.ctrl, t.block.fc, t.block.cw, t.block.dw)) = some (0#2, 0#16, [0#16, 0#16], [0#16, 0#16]) := by
  decide
/-- V-S1 as the first event after reset. -/
theorem test_first_event : (next? (step (State.reset.withFetchWord 32 0x10000096))).map (·.block.cw) =
    some [150#16, 0#16, 0#16, 0#16] := by decide

/-! ## Witnesses: the hypotheses of each statement are met together -/

/-- `small` with a schedule. -/
def smallAt (ctrl : BitVec 2) (fc : U16) (es : List Event) : State := { small ctrl fc with schedule := es }

/-- Some of every other event: a SETW, a GETW, INIT, an illegal command, a PPM tick. -/
def others : List Event :=
  [eventOf (.setw 0 1), eventOf (.getw 9), eventOf .init, .host 0#32, eventOf (.tickppm 0x0003#16)]

/-- The same events with `n` PWM ticks after them. -/
def withTicks (n : Nat) : List Event := others ++ List.replicate n (eventOf .tickpwm)

theorem small_wf_idle : (small 0 0).wf :=
  ⟨by decide, by decide, ⟨by decide, by decide, by decide, by decide⟩, by simp [small, smallCfg], by simp [small, smallCfg], by simp [small, smallCfg],
    by decide⟩
theorem small_wf_boundary : (small 3 0).wf :=
  ⟨by decide, by decide, ⟨by decide, by decide, by decide, by decide⟩, by simp [small, smallCfg], by simp [small, smallCfg], by simp [small, smallCfg],
    by decide⟩
theorem small_wf_count : (small 3 4).wf :=
  ⟨by decide, by decide, ⟨by decide, by decide, by decide, by decide⟩, by simp [small, smallCfg], by simp [small, smallCfg], by simp [small, smallCfg],
    by decide⟩
theorem others_ordinary : ∀ e ∈ withTicks 5, isOrdinary e = true := by decide

theorem witness_DecodeOfEncode : (Instr.setw 255 (-32768)).wf = true ∧ (Instr.getw 255).wf = true ∧
    Instr.init.wf = true ∧ Instr.tickpwm.wf = true ∧ (Instr.tickppm 0xFFFF#16).wf = true := by decide
theorem witness_EncodeOfDecode : decodeWord 0x10FF8000#32 = some (.setw 255 (-32768)) := by decide
theorem witness_DecoderFollowsOpcodeMap : (opcodeRow .setw).matches 0x10FFFFFF#32 ∧
    (opcodeRow .getw).matches 0x20FF0000#32 ∧ (opcodeRow .init).matches 0x30000000#32 ∧
    (opcodeRow .tickpwm).matches 0x40000000#32 ∧ (opcodeRow .tickppm).matches 0x5000FFFF#32 := by decide
theorem witness_ListingRoundTrip : 1 ≤ 1 := by decide
theorem witness_StepRunsDecodedOperation :
    (smallAt 3 0 [eventOf .tickpwm]).cfg.legal ∧ (smallAt 3 0 [eventOf .tickpwm]).schedule = eventOf .tickpwm :: [] ∧
    decodeEvent (eventOf .tickpwm) = .op .tickpwm ∧ Instr.tickpwm.wf = true := by decide
/-- One word for each disjunct. -/
theorem witness_IllegalCommandAnswer : smallCfg.legal ∧
    (smallAt 0 0 [.host 0x40000000#32]).schedule = .host 0x40000000#32 :: [] ∧
    (opField 0x40000000#32 ≠ 1#4 ∧ opField 0x40000000#32 ≠ 2#4 ∧ opField 0x40000000#32 ≠ 3#4) ∧
    rsvField 0x11000000#32 ≠ 0#4 ∧ (opField 0x20000001#32 = 2#4 ∧ valField 0x20000001#32 ≠ 0#16) ∧
    (opField 0x30010000#32 = 3#4 ∧ chField 0x30010000#32 ≠ 0#8) ∧
    (opField 0x30000001#32 = 3#4 ∧ valField 0x30000001#32 ≠ 0#16) := by decide
theorem witness_StrobeWords : smallCfg.legal ∧
    (smallAt 0 0 [.pwmStrobe 0x40000001#32]).schedule = .pwmStrobe 0x40000001#32 :: [] ∧
    (smallAt 0 0 [.ppmStrobe 0x5000FFFF#32]).schedule = .ppmStrobe 0x5000FFFF#32 :: [] ∧
    0x5000FFFF#32 = (0x50000000#32 ||| (0xFFFF#16 : Mask).setWidth 32) := by decide
/-- A PPM strobe word that is not of the strobe's form. -/
theorem witness_StrobeWords_malformed (smp : Mask) : 0x50010000#32 ≠ (0x50000000#32 ||| smp.setWidth 32) := by
  intro h
  have := congrArg (fun w => w.getLsbD 16) h
  simp [BitVec.getLsbD_of_ge] at this
theorem witness_IllegalConfigurationRefused : smallCfg.legal ∧ ¬ { smallCfg with f := 0 }.legal ∧
    ¬ { smallCfg with f := 32769 }.legal ∧ ¬ { smallCfg with nPwm := 17 }.legal ∧
    { smallCfg with f := 32768, nPwm := 16, nPpm := 16, offset := 4294967294, dwMax := 65535 }.legal := by decide
theorem witness_ResetEventEffect : smallCfg.legal ∧ (smallAt 3 4 [.reset]).schedule = .reset :: [] := by decide
theorem witness_EmptyScheduleWaits : (small 3 4).cfg.legal ∧ (small 3 4).schedule = [] := by decide
theorem witness_EveryEventCompletes : smallCfg.legal ∧ isReal (eventOf .tickpwm) = true ∧ isReal .reset = true ∧
    isReal (.host 0#32) = true ∧ isReal (.pwmStrobe 0#32) = false ∧ isReal (.ppmStrobe 0x51000000#32) = false := by decide
/-- A host command and an event of another port, each with its next state. -/
theorem witness_ResponseWordForm : (next? (step (smallAt 3 0 [.host 0#32]))).isSome ∧
    (next? (step (smallAt 3 0 [eventOf .tickpwm]))).isSome ∧ ∀ w, eventOf .tickpwm ≠ .host w := by
  refine ⟨by decide, by decide, fun w h => ?_⟩
  cases h
theorem witness_SetwStoresClampedWidth : (small 0 0).wf ∧ 1 < (small 0 0).cfg.nPwm :=
  ⟨small_wf_idle, by decide⟩
/-- Values on both sides of each bound of the clamp. -/
theorem witness_WidthClamp : smallCfg.legal ∧ (-1 : Int) < 0 ∧ (smallCfg.f : Int) - 1 < 5 ∧
    (0 : Int) ≤ 4 ∧ (4 : Int) ≤ (smallCfg.f : Int) - 1 := by decide
theorem witness_InvalidChannelAnswer : (small 0 0).cfg.nPwm ≤ 2 ∧ (small 0 0).cfg.nPpm ≤ 2 := by decide
theorem witness_GetwAnswersDecodedWidth : (small 0 0).wf ∧ 1 < (small 0 0).cfg.nPpm :=
  ⟨small_wf_idle, by decide⟩
theorem witness_InitAndSetwIdempotent : (Instr.setw 0 1) = .init ∨ ∃ ch val, (Instr.setw 0 1) = .setw ch val :=
  .inr ⟨0, 1, rfl⟩
theorem witness_UnarmedTicks : (small 0 0).block.ctrl.getLsbD 0 = false ∧ (small 0 0).block.ctrl.getLsbD 1 = false := by
  decide
theorem witness_BoundaryTick : (small 3 0).cfg.legal ∧ (small 3 0).block.pwmArmed = true ∧
    (small 3 0).block.fc = 0#16 := by decide
theorem witness_CountTick : (small 3 4).wf ∧ (small 3 4).cfg.literalDecrement = false ∧
    (small 3 4).block.pwmArmed = true ∧ (small 3 4).block.fc ≠ 0#16 ∧ (small 3 4).block.cp[0]? = some 1#16 ∧
    (small 3 4).cfg.nPwm ≤ 2 :=
  ⟨small_wf_count, by decide⟩
/-- `small` with the switch on. -/
def literal : State := { small 3 4 with cfg := { smallCfg with literalDecrement := true } }
theorem literal_wf : literal.wf :=
  ⟨by decide, by decide, ⟨by decide, by decide, by decide, by decide⟩, by simp [literal, small, smallCfg], by simp [literal, small, smallCfg], by simp [literal, small, smallCfg],
    by decide⟩
theorem witness_LiteralDecrementTick : literal.wf ∧ literal.cfg.literalDecrement = true ∧
    literal.block.pwmArmed = true ∧ literal.block.fc ≠ 0#16 ∧ literal.block.cp[0]? = some 1#16 :=
  ⟨literal_wf, by decide⟩
/-- The armed tick, and one that drives nothing. -/
theorem witness_DriveCoversEveryLine : (small 3 4).wf ∧ (small 0 0).wf ∧
    (next? (exec .tickpwm (small 3 4))).isSome ∧ (next? (exec .tickpwm (small 0 0))).isSome :=
  ⟨small_wf_count, small_wf_idle, by decide⟩
/-- The two states differ in the other channel's period. -/
def smallB : State := { small 3 4 with block := { (small 3 4).block with cp := [1#16, 3#16], acc := [0#32, 9#32] } }
theorem smallB_wf : smallB.wf :=
  ⟨by decide, by decide, ⟨by decide, by decide, by decide, by decide⟩, by simp [smallB, small, smallCfg], by simp [smallB, small, smallCfg], by simp [smallB, small, smallCfg],
    by decide⟩
theorem witness_ChannelsIndependent : (small 3 4).wf ∧ smallB.wf ∧ (small 3 4).cfg = smallB.cfg ∧ 0 < smallB.cfg.nPwm ∧
    (small 3 4).block.pwmArmed = true ∧ smallB.block.pwmArmed = true ∧ (small 3 4).block.fc = smallB.block.fc ∧
    (small 3 4).block.cw[0]? = smallB.block.cw[0]? ∧ (small 3 4).block.cp[0]? = smallB.block.cp[0]? ∧
    (small 3 4).block.ppmArmed = smallB.block.ppmArmed ∧ (0x0001#16).getLsbD 0 = (0x0003#16).getLsbD 0 ∧
    (small 3 4).block.acc[0]? = smallB.block.acc[0]? ∧ (small 3 4).block.dw[0]? = smallB.block.dw[0]? ∧
    (next? (exec .tickpwm (small 3 4))).isSome ∧ (next? (exec .tickpwm smallB)).isSome ∧
    (next? (exec (.tickppm 0x0001#16) (small 3 4))).isSome ∧ (next? (exec (.tickppm 0x0003#16) smallB)).isSome :=
  ⟨small_wf_count, smallB_wf, by decide⟩
/-- A high sample, a low one above the offset, a low one at or below it. -/
theorem witness_PpmTickChannelRule : (small 3 0).wf ∧ (small 3 0).block.ppmArmed = true ∧
    (small 3 0).block.acc[0]? = some 0#32 ∧ (small 3 0).block.dw[0]? = some 7#16 ∧
    (0x0001#16).getLsbD 0 = true ∧ (0x0001#16).getLsbD 1 = false ∧
    (small 3 0).cfg.offset < (5#32).toNat ∧ (3#32).toNat ≤ (small 3 0).cfg.offset :=
  ⟨small_wf_boundary, by decide⟩
theorem witness_HighSampleBitsIgnored : (small 3 0).wf ∧
    ∀ c, c < (small 3 0).cfg.nPpm → (0x0001#16).getLsbD c = (0xFFFD#16).getLsbD c :=
  ⟨small_wf_boundary, by decide⟩
theorem witness_PpmPhaseMachine : smallCfg.legal ∧ smallCfg.offset < (4#32).toNat ∧ (3#32).toNat ≤ smallCfg.offset := by
  decide
theorem witness_DecodedWidthChangesOnlyAtPulseEnd : (smallAt 3 0 [eventOf (.tickppm 0#16)]).wf ∧
    (∀ e ∈ (smallAt 3 0 [eventOf (.tickppm 0#16)]).schedule.head?, isReset e = false) ∧
    (next? (step (smallAt 3 0 [eventOf (.tickppm 0#16)]))).map (·.block.dw[1]?) = some (some 2#16) ∧
    (small 3 0).block.dw[1]? = some 0#16 :=
  ⟨small_wf_boundary, by decide⟩
/-- A legal command to an invalid channel, and an illegal word; each answers an error status. -/
theorem witness_NoErrorIsRecorded :
    (next? (step (smallAt 3 0 [eventOf (.setw 2 1)]))).map (·.response) = some (some 0x10000000#32) ∧
    (next? (step (smallAt 3 0 [.host 0#32]))).map (·.response) = some (some 0x20000000#32) ∧
    (0x10000000#32).extractLsb' 28 4 ≠ 0#4 ∧ (0x20000000#32).extractLsb' 28 4 ≠ 0#4 := by decide
theorem witness_ConfigurationIsFixed : (next? (step (smallAt 3 0 [.reset]))).isSome := by decide
/-- Both kinds of tick after SETW, and the boundary tick. -/
theorem witness_SetwAgainstTicks : (small 3 4).wf ∧ (small 3 0).wf ∧ (small 3 4).block.pwmArmed = true ∧
    1 < (small 3 4).cfg.nPwm ∧ (small 3 4).block.fc ≠ 0#16 ∧ (small 3 0).block.pwmArmed = true ∧ (small 3 0).block.fc = 0#16 :=
  ⟨small_wf_count, small_wf_boundary, by decide⟩
/-- A PWM tick before GETW, and a PPM tick that writes the channel's DW. -/
theorem witness_GetwAgainstTicks : (next? (exec .tickpwm (small 3 4))).isSome ∧
    (next? (exec (.getw 1) (small 3 4))).isSome ∧
    (next? (exec (.tickppm 0#16) (small 3 4))).map (·.block.dw[1]?) = some (some 2#16) ∧
    1 < (small 3 4).cfg.nPpm := by decide
/-- A boundary tick, an idle step and a Reset from states within the ranges. -/
theorem witness_StepKeepsRanges : withinRanges (smallAt 3 0 [eventOf .tickpwm]) [2#16, 4#16] ∧
    (next? (step (smallAt 3 0 [eventOf .tickpwm]))).isSome ∧ (next? (step (small 3 0))).isSome ∧
    (next? (step (smallAt 3 0 [.reset]))).isSome :=
  ⟨⟨small_wf_boundary, by decide, by simp [smallAt, small, smallCfg]; decide⟩, by decide⟩
theorem witness_ResetWithinRanges : smallCfg.legal ∧ Config.reference.legal := by decide
theorem witness_ArmedFromInitToReset : (next? (step (smallAt 3 0 [eventOf .tickpwm]))).isSome ∧
    isReset (eventOf .tickpwm) = false ∧ isInit (eventOf .tickpwm) = false ∧ (small 3 0).block.pwmArmed = true ∧
    (small 0 0).block.ppmArmed = false := by decide
/-- One frame from a boundary tick: t = 0, and t = F - 1. -/
theorem witness_FrameWaveform : (small 3 0).wf ∧ (small 3 0).cfg.literalDecrement = false ∧
    (small 3 0).block.pwmArmed = true ∧ (small 3 0).block.fc = 0#16 ∧ (small 3 0).block.cw[0]? = some 2#16 ∧
    (∀ e ∈ withTicks 4, isOrdinary e = true) ∧ pwmTicks (withTicks 0) < (small 3 0).cfg.f ∧
    pwmTicks (withTicks 4) < (small 3 0).cfg.f :=
  ⟨small_wf_boundary, by decide⟩
theorem witness_FrameHighTicks : (small 3 0).wf ∧ (small 3 0).cfg.literalDecrement = false ∧
    (small 3 0).block.pwmArmed = true ∧ (small 3 0).block.fc = 0#16 ∧ (small 3 0).block.cw[1]? = some 4#16 ∧
    (∀ e ∈ withTicks 4, isOrdinary e = true) ∧ pwmTicks (withTicks 4) = (small 3 0).cfg.f - 1 :=
  ⟨small_wf_boundary, by decide⟩
/-- A window from one tick after the boundary: width 2 before, width 1 (set by `others`) after. -/
theorem witness_WindowHighTicks : (small 3 0).wf ∧ (small 3 0).cfg.literalDecrement = false ∧
    (small 3 0).block.pwmArmed = true ∧ (small 3 0).block.fc = 0#16 ∧ (small 3 0).block.cw[0]? = some 2#16 ∧
    (∀ e ∈ withTicks 1, isOrdinary e = true) ∧ (∀ e ∈ withTicks 3, isOrdinary e = true) ∧
    pwmTicks (withTicks 1) + pwmTicks (withTicks 3) = (small 3 0).cfg.f - 1 ∧
    (next? (runEvents (small 3 0) (eventOf .tickpwm :: withTicks 1))).bind
      (fun m => (next? (runEvents m (withTicks 3))).bind (·.block.cw[0]?)) = some 1#16 :=
  ⟨small_wf_boundary, by decide⟩
/-- Within the first frame, and past its end. -/
theorem witness_FramePhase : (small 3 0).wf ∧ (small 3 0).block.pwmArmed = true ∧ (small 3 0).block.fc = 0#16 ∧
    (∀ e ∈ withTicks 6, isOrdinary e = true) ∧ pwmTicks (withTicks 1) = 0 + 1 ∧ pwmTicks (withTicks 6) = 5 + 1 :=
  ⟨small_wf_boundary, by decide⟩
theorem witness_SteadyWidthWaveform : (small 3 0).wf ∧ (small 3 0).cfg.literalDecrement = false ∧
    (small 3 0).block.pwmArmed = true ∧ (small 3 0).block.fc = 0#16 ∧ (small 3 0).block.cw[1]? = some 4#16 ∧
    (∀ e ∈ withTicks 6, isOrdinary e = true ∧ setwOf 1 e = none) ∧ pwmTicks (withTicks 6) = 5 + 1 :=
  ⟨small_wf_boundary, by decide⟩
/-- The reference configuration, armed, with CW[0] = 150 and ACC all 0. -/
def scenario : State :=
  { State.reset with block := { (resetBlock Config.reference 0#16) with ctrl := 3#2, cw := [150#16, 0#16, 0#16, 0#16] } }
theorem scenario_wf : scenario.wf :=
  ⟨by decide, by decide, ⟨by decide, by decide, by decide, by decide⟩, by simp [scenario, State.reset, State.resetWith, resetBlock, Config.reference], by simp [scenario, State.reset, State.resetWith, resetBlock, Config.reference], by simp [scenario, State.reset, State.resetWith, resetBlock, Config.reference],
    by decide⟩
theorem witness_ScenarioWidth150 : scenario.wf ∧ scenario.cfg.f = 1000 ∧ scenario.cfg.literalDecrement = false ∧
    scenario.block.pwmArmed = true ∧ scenario.block.fc = 0#16 ∧ scenario.block.cw[0]? = some 150#16 ∧
    (∀ e ∈ [eventOf .tickpwm, eventOf .tickpwm], isOrdinary e = true ∧ setwOf 0 e = none) ∧
    pwmTicks [eventOf .tickpwm, eventOf .tickpwm] = 1 + 1 :=
  ⟨scenario_wf, by decide⟩
theorem witness_FirstArmedTickIsBoundary : Config.reference.legal ∧
    (∀ e ∈ [eventOf (.setw 0 150), eventOf .tickpwm, .host 0#32], isOrdinary e = true ∧ isInit e = false) ∧
    (∀ e ∈ others, isOrdinary e = true ∧ isPwmTick e = false) := by decide
theorem witness_BoundaryLoadsLastWidth : (small 3 4).wf ∧ (small 3 4).block.cw[0]? = some 2#16 ∧
    (∀ e ∈ withTicks 4, isOrdinary e = true) ∧
    (next? (runEvents (small 3 4) (withTicks 4))).map (fun t => (t.block.pwmArmed, t.block.fc)) =
      some (true, 0#16) :=
  ⟨small_wf_count, by decide⟩
theorem witness_SetwsWithinAFrameCoalesce : (small 3 4).wf ∧ (Instr.setw 0 1).wf = true ∧ (Instr.setw 0 3).wf = true ∧
    (∀ e ∈ withTicks 4, isOrdinary e = true) ∧
    occursWithin boundaryNext (withTicks 4).length (scheduled (small 3 4) (withTicks 4)) = false ∧
    occursWithin boundaryNext (withTicks 5).length (scheduled (small 3 4) (withTicks 5)) = true :=
  ⟨small_wf_count, by decide⟩
/-- Unarmed: more ticks than FC counts, and no boundary tick. -/
theorem witness_SetwsWithinAFrameCoalesce_unarmed : (small 0 0).wf ∧
    (∀ e ∈ List.replicate 7 (eventOf .tickpwm), isOrdinary e = true) ∧
    occursWithin boundaryNext 7 (scheduled (small 0 0) (List.replicate 7 (eventOf .tickpwm))) = false :=
  ⟨small_wf_idle, by decide⟩
/-- One PPM tick sampling line 0 high, with other events around it, `n` times. -/
def pulse (n : Nat) : List Event := (List.replicate n others).flatten

theorem pulse_samples (n : Nat) : samplesAll 0 true (pulse n) := by
  intro e he smp h
  obtain ⟨l, hl, hm⟩ := List.mem_flatten.1 he
  rw [List.eq_of_mem_replicate hl] at hm
  have hall : ∀ e ∈ others, (ppmSample e).all (fun x => sampleBit x 0) = true := by decide
  have := hall e hm
  rw [h] at this
  exact this

/-- A pulse of 4 ticks, one above OFFSET = 3, and one of exactly OFFSET ticks: both branches of the rule. -/
theorem witness_PulseDecoding : (small 3 0).wf ∧ samplesAll 0 true (pulse 4) ∧ (small 3 0).block.ppmArmed = true ∧
    (small 3 0).block.acc[0]? = some 0#32 ∧ (small 3 0).block.dw[0]? = some 7#16 ∧
    (∀ e ∈ pulse 4, isOrdinary e = true) ∧ (0#16).getLsbD 0 = false ∧
    (small 3 0).cfg.offset < min (ppmTicks (pulse 4)) 4294967295 ∧ (∀ e ∈ pulse 3, isOrdinary e = true) ∧
    ¬ (small 3 0).cfg.offset < min (ppmTicks (pulse 3)) 4294967295 ∧ samplesAll 0 true (pulse 3) :=
  ⟨small_wf_boundary, pulse_samples 4, by decide, by decide, by decide, by decide, by decide, by decide, by decide, by decide,
    pulse_samples 3⟩
theorem witness_PulseRoundTrip : (small 3 0).wf ∧ samplesAll 0 true (pulse 4) ∧ (small 3 0).block.ppmArmed = true ∧
    (small 3 0).block.acc[0]? = some 0#32 ∧ (∀ e ∈ pulse 4, isOrdinary e = true) ∧ (0#16).getLsbD 0 = false ∧
    ppmTicks (pulse 4) = (small 3 0).cfg.offset + 1 ∧ 1 ≤ (small 3 0).cfg.dwMax ∧
    (small 3 0).cfg.offset + 1 ≤ 4294967295 :=
  ⟨small_wf_boundary, pulse_samples 4, by decide⟩
/-- A pulse of exactly OFFSET ticks. -/
theorem witness_NoiseRejected : (small 3 0).wf ∧ samplesAll 0 true (pulse 3) ∧ (small 3 0).block.ppmArmed = true ∧
    (small 3 0).block.acc[0]? = some 0#32 ∧ (∀ e ∈ pulse 3, isOrdinary e = true) ∧ (0#16).getLsbD 0 = false ∧
    ppmTicks (pulse 3) = (small 3 0).cfg.offset :=
  ⟨small_wf_boundary, pulse_samples 3, by decide⟩
theorem ones_samples : ∀ x ∈ List.replicate 130 0x0008#16, x.getLsbD 3 = true := by
  intro x hx
  rw [List.eq_of_mem_replicate hx]
  decide
theorem witness_ScenarioPulse130 : scenario.wf ∧ scenario.cfg.offset = 100 ∧ 30 ≤ scenario.cfg.dwMax ∧
    scenario.block.ppmArmed = true ∧ scenario.block.acc[3]? = some 0#32 ∧ (0#16).getLsbD 3 = false ∧
    (List.replicate 130 0x0008#16).length = 130 ∧ ∀ x ∈ List.replicate 130 0x0008#16, x.getLsbD 3 = true :=
  ⟨scenario_wf, by decide, by decide, by decide, by decide, by decide, List.length_replicate, ones_samples⟩
/-- A run in which no plausible pulse ends on channel 1, and one in which one does. -/
theorem witness_ZeroUntilFirstPlausiblePulse : (small 3 0).wf ∧ (small 3 0).block.dw[1]? = some 0#16 ∧
    (∀ e ∈ others, isOrdinary e = true) ∧ isOrdinary (eventOf (.tickppm 0#16)) = true ∧
    occursWithin (plausibleEnd 1) 5 (scheduled (small 3 0) others) = false ∧
    occursWithin (plausibleEnd 1) 1 (scheduled (small 3 0) [eventOf (.tickppm 0#16)]) = true :=
  ⟨small_wf_boundary, by decide⟩
theorem witness_GetwBeforeInitAnswersZero : Config.reference.legal ∧ 7 < Config.reference.nPpm ∧
    (∀ e ∈ [eventOf (.setw 0 1), eventOf (.tickppm 0x00FF#16)], isOrdinary e = true ∧ isInit e = false) := by decide

/-- Three armed PWM ticks in (in-frame index 2 of F = 5, FC = 2), line 0 high since one PPM tick ago. -/
def framed : State :=
  { small 3 2 with
    block := { (small 3 2).block with
      cw := [2#16, 4#16], cp := [0#16, 2#16], out := 0b11#16, acc := [1#32, 0#32], dw := [7#16, 0#16] } }
theorem framed_wf : framed.wf :=
  ⟨by decide, by decide, ⟨by decide, by decide, by decide, by decide⟩, by simp [framed, small, smallCfg],
    by simp [framed, small, smallCfg], by simp [framed, small, smallCfg], by decide⟩
/-- The history that leads there. -/
def framedHistory : History :=
  { armed := true, commanded := fun k => [2, 4].getD k 0, ticks := 3, loaded := fun k => [2, 4].getD k 0,
    high := fun k => [1, 0].getD k 0, decoded := fun k => [7, 0].getD k 0 }
/-- In a frame, with a PWM tick next. -/
theorem witness_StepFollowsHistory : Follows framedHistory { framed with schedule := [eventOf .tickpwm] } ∧
    (next? (step { framed with schedule := [eventOf .tickpwm] })).isSome :=
  ⟨⟨framed_wf, rfl, rfl, rfl, by decide, by decide, by decide, fun h => absurd h (by decide), fun _ => by decide⟩, by decide⟩
theorem witness_ResetFollowsStart : Config.reference.legal ∧ Config.reference.literalDecrement = false := by decide

end Sys2Proof.Tests
end

section
/-! PROOFS. O8 and O11, of the family 00_scope.md. First the fields of a command word and the decoding of every
operation's event, then what `step` runs and when it refuses. -/

namespace Sys2Proof

/-! ## The fields of a command word (R51) -/

/-- Every bit of a command word: VAL, CH, RSV and OP from the lowest bit up. -/
theorem getLsbD_commandWord (op : BitVec 4) (ch : BitVec 8) (val : BitVec 16) (k : Nat) :
    (commandWord op ch val).getLsbD k =
      if k < 16 then val.getLsbD k
      else if k < 24 then ch.getLsbD (k - 16)
      else if k < 28 then false
      else op.getLsbD (k - 28) := by
  have happend : (commandWord op ch val).getLsbD k =
      BitVec.getLsbD (w := 4 + 4 + 8 + 16) (op ++ 0#4 ++ ch ++ val) k := rfl
  rw [happend]
  simp only [BitVec.getLsbD_append, BitVec.getLsbD_zero]
  grind

@[simp] theorem opField_commandWord (op : BitVec 4) (ch : BitVec 8) (val : BitVec 16) :
    opField (commandWord op ch val) = op := by
  ext k hk
  have hval : ¬ 28 + k < 16 := by omega
  have hch : ¬ 28 + k < 24 := by omega
  simp [opField, getLsbD_commandWord, hval, hch, BitVec.getLsbD_eq_getElem hk]

@[simp] theorem rsvField_commandWord (op : BitVec 4) (ch : BitVec 8) (val : BitVec 16) :
    rsvField (commandWord op ch val) = 0#4 := by
  ext k hk
  have hval : ¬ 24 + k < 16 := by omega
  have hrsv : 24 + k < 28 := by omega
  simp [rsvField, getLsbD_commandWord, hval, hrsv]

@[simp] theorem chField_commandWord (op : BitVec 4) (ch : BitVec 8) (val : BitVec 16) :
    chField (commandWord op ch val) = ch := by
  ext k hk
  have hch : 16 + k < 24 := by omega
  simp [chField, getLsbD_commandWord, hch, BitVec.getLsbD_eq_getElem hk]

@[simp] theorem valField_commandWord (op : BitVec 4) (ch : BitVec 8) (val : BitVec 16) :
    valField (commandWord op ch val) = val := by
  ext k hk
  simp [valField, getLsbD_commandWord, hk]

/-! ## The event of an operation decodes back to it (R57, R60, R63) -/

/-- The port decoder reads every well-formed operation back from its word. -/
theorem decodeOn_portOf_encode (i : Instr) (hwf : i.wf = true) : decodeOn (portOf i) (encode i) = .op i := by
  cases i with
  | setw ch val =>
    obtain ⟨⟨hch, hlo⟩, hhi⟩ : (ch ≤ 255 ∧ -32768 ≤ val) ∧ val ≤ 32767 := by simpa [Instr.wf] using hwf
    have hmod : ch % 256 = ch := Nat.mod_eq_of_lt (by omega)
    have hval : (BitVec.ofInt 16 val).toInt = val :=
      BitVec.toInt_ofInt_eq_self (by decide) (by omega) (by omega)
    simp [portOf, decodeOn, encode, decodeHost, hmod, hval]
  | getw ch =>
    have hch : ch ≤ 255 := by simpa [Instr.wf] using hwf
    have hmod : ch % 256 = ch := Nat.mod_eq_of_lt (by omega)
    simp [portOf, decodeOn, encode, decodeHost, hmod]
  | init => simp [portOf, decodeOn, encode, decodeHost]
  | tickpwm => rfl
  | tickppm smp => simp [portOf, decodeOn, encode, decodePpm]

/-- An event on a port asks for the operation its port's decoder answers. -/
theorem decodeEvent_onPort (p : Port) (w : Word) (i : Instr) (h : decodeOn p w = .op i) :
    decodeEvent (Event.onPort p w) = .op i := by
  cases p with
  | host => simp [Event.onPort, decodeEvent, show decodeHost w = .op i from h]
  | pwm => simp [Event.onPort, decodeEvent, show decodePwm w = .op i from h]
  | ppm => simp [Event.onPort, decodeEvent, show decodePpm w = .op i from h]

theorem decodeEvent_eventOf (i : Instr) (hwf : i.wf = true) : decodeEvent (eventOf i) = .op i :=
  decodeEvent_onPort _ _ i (decodeOn_portOf_encode i hwf)

end Sys2Proof

namespace Sys2Proof.Machine

/-! ## What a step runs and when it refuses (R9, R12, R40) -/

/-- The next event's operation is what the step runs. -/
theorem step_eq_exec (s : State) (e : Event) (rest : List Event) (i : Instr) (hc : s.cfg.legal)
    (hs : s.schedule = e :: rest) (hd : decodeEvent e = .op i) : step s = exec i s := by
  rw [step_cons s hc e rest hs, hd, runRequest]

/-- An operation takes its event from the schedule and keeps the configuration. -/
theorem exec_schedule_cfg (i : Instr) (s t : State) (h : exec i s = .next t) :
    t.schedule = s.schedule.tail ∧ t.cfg = s.cfg := by
  obtain ⟨u, hu, hcfg, -, hsched, -⟩ := exec_completes i s
  cases hu.symm.trans h
  exact ⟨hsched, hcfg⟩

/-- No event is a reason to refuse the configuration. -/
theorem runRequest_ne_illegalConfiguration (r : Request) (s : State) :
    runRequest r s ≠ .refused .illegalConfiguration := by
  cases r with
  | op i =>
    obtain ⟨t, ht, -⟩ := exec_completes i s
    simp [runRequest, ht]
  | illegalCommand why => simp [runRequest]
  | malformedStrobe why => simp [runRequest]
  | reset => simp [runRequest]

/-- The configuration is refused exactly when it is not legal (R9). -/
theorem step_eq_illegalConfiguration_iff (s : State) :
    step s = .refused .illegalConfiguration ↔ ¬ s.cfg.legal := by
  refine ⟨fun hstep hc => ?_, step_illegal s⟩
  cases hs : s.schedule with
  | nil =>
    rw [step_nil s hc hs] at hstep
    cases hstep
  | cons e rest =>
    rw [step_cons s hc e rest hs] at hstep
    exact runRequest_ne_illegalConfiguration _ s hstep

/-- A configuration is not legal exactly when a parameter is outside its range of R6. -/
theorem not_legal_iff (c : Config) :
    ¬ c.legal ↔ c.nPwm < 1 ∨ 16 < c.nPwm ∨ c.nPpm < 1 ∨ 16 < c.nPpm ∨ c.f < 1 ∨ 32768 < c.f ∨
      4294967294 < c.offset ∨ c.dwMax < 1 ∨ 65535 < c.dwMax ∨ c.tickUs ≤ 0 := by
  simp only [Config.legal, not_and_or, not_le, not_lt, or_assoc]

/-! ## The obligations -/

/-- Settles O8: the event decodes to `i` by hypothesis or by the round trip of its encoding, so the step is
`exec i`. -/
theorem stepRunsDecodedOperation : Obligations.StepRunsDecodedOperation := by
  intro s e rest i hc hs he
  have hd : decodeEvent e = .op i := by
    obtain hd | ⟨hwf, rfl⟩ := he
    · exact hd
    · exact decodeEvent_eventOf i hwf
  refine ⟨step_eq_exec s e rest i hc hs hd, fun t ht => ?_⟩
  obtain ⟨hsched, hcfg⟩ := exec_schedule_cfg i s t ht
  exact ⟨by rw [hsched, hs, List.tail_cons], hcfg⟩

/-- Settles O11: only an illegal configuration is refused as one, and illegal means outside a range of R6. -/
theorem illegalConfigurationRefused : Obligations.IllegalConfigurationRefused := fun s =>
  (step_eq_illegalConfiguration_iff s).trans (not_legal_iff s.cfg)

end Sys2Proof.Machine
end

section
/-! PROOFS. O12, O13, O34, O36, O37, O41, O42, O47, O57, O59 and O60, of the family 10_state.md. First the writers of
each element (R26), then the ranges of R30, the place in the frame (R19), the plausible pulses (R22) and the history. -/

namespace Sys2Proof.Machine

/-! ## The block after an operation, case by case -/

theorem blockAfter_setw_valid (c : Config) (ch : Nat) (val : Int) (b : Block) (h : ch < c.nPwm) :
    blockAfter c (.setw ch val) b = b.writeCw ch (clampw c val) := if_pos h

theorem blockAfter_setw_invalid (c : Config) (ch : Nat) (val : Int) (b : Block) (h : ¬ ch < c.nPwm) :
    blockAfter c (.setw ch val) b = b := if_neg h

@[simp] theorem blockAfter_getw (c : Config) (ch : Nat) (b : Block) : blockAfter c (.getw ch) b = b := rfl

@[simp] theorem blockAfter_init (c : Config) (b : Block) : blockAfter c .init b = { b with ctrl := 3#2 } := by
  simp only [blockAfter, armBoth_eq]

theorem blockAfter_tickpwm_armed (c : Config) (b : Block) (h : b.pwmArmed = true) :
    blockAfter c .tickpwm b = pwmTick c b := if_pos h

theorem blockAfter_tickpwm_unarmed (c : Config) (b : Block) (h : b.pwmArmed = false) :
    blockAfter c .tickpwm b = b := by simp [blockAfter, h]

theorem blockAfter_tickppm_armed (c : Config) (smp : Mask) (b : Block) (h : b.ppmArmed = true) :
    blockAfter c (.tickppm smp) b = ppmTick c smp b := if_pos h

theorem blockAfter_tickppm_unarmed (c : Config) (smp : Mask) (b : Block) (h : b.ppmArmed = false) :
    blockAfter c (.tickppm smp) b = b := by simp [blockAfter, h]

/-- A property of the block that each change an operation can make keeps is kept by the operation. -/
theorem blockAfter_induction {motive : Block → Prop} (c : Config) (i : Instr) (b : Block) (unchanged : motive b)
    (setw : ∀ ch val, i = .setw ch val → ch < c.nPwm → motive (b.writeCw ch (clampw c val)))
    (init : i = .init → motive { b with ctrl := 3#2 })
    (tickpwm : i = .tickpwm → b.pwmArmed = true → motive (pwmTick c b))
    (tickppm : ∀ smp, i = .tickppm smp → b.ppmArmed = true → motive (ppmTick c smp b)) :
    motive (blockAfter c i b) := by
  cases i with
  | setw ch val =>
    by_cases h : ch < c.nPwm
    · rw [blockAfter_setw_valid c ch val b h]
      exact setw ch val rfl h
    · rwa [blockAfter_setw_invalid c ch val b h]
  | getw ch => exact unchanged
  | init =>
    rw [blockAfter_init]
    exact init rfl
  | tickpwm =>
    cases h : b.pwmArmed with
    | false => rwa [blockAfter_tickpwm_unarmed c b h]
    | true =>
      rw [blockAfter_tickpwm_armed c b h]
      exact tickpwm rfl h
  | tickppm smp =>
    cases h : b.ppmArmed with
    | false => rwa [blockAfter_tickppm_unarmed c smp b h]
    | true =>
      rw [blockAfter_tickppm_armed c smp b h]
      exact tickppm smp rfl h

/-! ## The one writer of each element (R26) -/

theorem blockAfter_cw (c : Config) (i : Instr) (b : Block) (hi : i.mnemonic ≠ .setw) :
    (blockAfter c i b).cw = b.cw :=
  blockAfter_induction (motive := fun b' => b'.cw = b.cw) c i b rfl
    (by rintro ch val rfl; exact absurd rfl hi) (fun _ => rfl) (fun _ _ => pwmTick_cw c b) (fun _ _ _ => rfl)

theorem blockAfter_cp_fc_out (c : Config) (i : Instr) (b : Block) (hi : i.mnemonic ≠ .tickpwm) :
    (blockAfter c i b).cp = b.cp ∧ (blockAfter c i b).fc = b.fc ∧ (blockAfter c i b).out = b.out :=
  blockAfter_induction (motive := fun b' => b'.cp = b.cp ∧ b'.fc = b.fc ∧ b'.out = b.out) c i b ⟨rfl, rfl, rfl⟩
    (fun _ _ _ _ => ⟨rfl, rfl, rfl⟩) (fun _ => ⟨rfl, rfl, rfl⟩) (by rintro rfl; exact absurd rfl hi)
    (fun _ _ _ => ⟨rfl, rfl, rfl⟩)

theorem blockAfter_acc_dw (c : Config) (i : Instr) (b : Block) (hi : i.mnemonic ≠ .tickppm) :
    (blockAfter c i b).acc = b.acc ∧ (blockAfter c i b).dw = b.dw :=
  blockAfter_induction (motive := fun b' => b'.acc = b.acc ∧ b'.dw = b.dw) c i b ⟨rfl, rfl⟩
    (fun _ _ _ _ => ⟨rfl, rfl⟩) (fun _ => ⟨rfl, rfl⟩) (fun _ _ => ⟨pwmTick_acc c b, pwmTick_dw c b⟩)
    (by rintro smp rfl; exact absurd rfl hi)

theorem blockAfter_ctrl (c : Config) (i : Instr) (b : Block) (hi : i.mnemonic ≠ .init) :
    (blockAfter c i b).ctrl = b.ctrl :=
  blockAfter_induction (motive := fun b' => b'.ctrl = b.ctrl) c i b rfl
    (fun _ _ _ _ => rfl) (by rintro rfl; exact absurd rfl hi) (fun _ _ => pwmTick_ctrl c b) (fun _ _ _ => rfl)

theorem pwmArmed_of_ctrl (b : Block) (h : b.ctrl = 3#2) : b.pwmArmed = true := by
  rw [Block.pwmArmed, h]
  decide

theorem ppmArmed_of_ctrl (b : Block) (h : b.ctrl = 3#2) : b.ppmArmed = true := by
  rw [Block.ppmArmed, h]
  decide

/-- No operation disarms the PWM engine (R109). -/
theorem blockAfter_pwmArmed (c : Config) (i : Instr) (b : Block) (h : b.pwmArmed = true) :
    (blockAfter c i b).pwmArmed = true :=
  blockAfter_induction (motive := fun b' => b'.pwmArmed = true) c i b h
    (fun _ _ _ _ => h) (fun _ => pwmArmed_of_ctrl _ rfl) (fun _ _ => by rwa [Block.pwmArmed, pwmTick_ctrl])
    (fun _ _ _ => h)

/-- Settles O36: an operation leaves `blockAfter`, which has one writer for each element. -/
theorem singleWriter : Obligations.SingleWriter := by
  intro i s
  obtain ⟨t, hexec, hcfg, hdraws, hsched, hblock⟩ := exec_completes i s
  refine ⟨t, hexec, ?_⟩
  rw [hblock]
  refine ⟨blockAfter_cw s.cfg i s.block, blockAfter_cp_fc_out s.cfg i s.block, blockAfter_acc_dw s.cfg i s.block,
    blockAfter_ctrl s.cfg i s.block, fun hi => ?_, hcfg, hdraws, hsched⟩
  cases i with
  | getw ch => rfl
  | _ => nomatch hi

/-- Settles O37: whatever the step did, it kept the configuration. -/
theorem configurationIsFixed : Obligations.ConfigurationIsFixed := by
  intro s t h
  obtain ⟨-, hcfg, -⟩ := step_cases s t h
  exact hcfg

/-! ## Reset (R29, R128) -/

/-- Settles O12: Reset leaves `resetBlock` with the next draw, read element by element. -/
theorem resetEventEffect : Obligations.ResetEventEffect := by
  intro s rest hc hs
  have hstep : step s = .next (resetEvent s) := step_cons s hc .reset rest hs
  obtain ⟨⟨-, hn⟩, -⟩ := hc
  refine ⟨_, hstep, rfl, by simp [hs], rfl, rfl, rfl, rfl, rfl, by simp, fun c hlt => ?_, fun c hlt => ?_,
    fun c hge => ?_⟩
  · simp [Block.outBit, getLsbD_ones _ c hn, hlt]
  · simp [hlt]
  · simp [Block.outBit, getLsbD_ones _ c hn, hge]

/-- Settles O13: the reference configuration has four PWM and eight PPM channels. -/
theorem resetStateValues : Obligations.ResetStateValues :=
  ⟨rfl, rfl, rfl, rfl, rfl, rfl, rfl, rfl, rfl, rfl, rfl⟩

/-! ## The PPM channel as a state machine (R27) -/

/-- A value decoded at the end of a plausible pulse is a pulse width: from 1 to DW_MAX (R22). -/
theorem nextDw_pulse_bounds (c : Config) (hc : c.legal) (high : Bool) (a : U32) (d : U16)
    (h : pulseEnds c high a = true) : 1 ≤ (nextDw c high a d).toNat ∧ (nextDw c high a d).toNat ≤ c.dwMax := by
  have hoff : c.offset < a.toNat := by
    obtain ⟨-, hoff⟩ := (Bool.and_eq_true _ _).mp h
    exact of_decide_eq_true hoff
  rw [nextDw_toNat c hc high a d h]
  obtain ⟨-, -, -, -, ⟨hmax, -⟩, -⟩ := hc
  omega

/-- A decoded width stays at most DW_MAX in a PPM tick (R30). -/
theorem nextDw_le (c : Config) (hc : c.legal) (high : Bool) (a : U32) (d : U16) (hd : d.toNat ≤ c.dwMax) :
    (nextDw c high a d).toNat ≤ c.dwMax := by
  cases h : pulseEnds c high a with
  | false => rwa [nextDw_unchanged c high a d h]
  | true => exact (nextDw_pulse_bounds c hc high a d h).2

theorem ppmPhase_eq_accumulating (a : U32) (h : a.toNat ≠ 0) : ppmPhase a = .accumulating :=
  if_neg (by rintro rfl; exact h rfl)

/-- Settles O34: a high sample counts the accumulator to at least 1, a low one clears it, and only a low one with the
accumulator above OFFSET decodes. -/
theorem ppmPhaseMachine : Obligations.PpmPhaseMachine := by
  intro c a d hc
  have hhigh : (nextAcc true a).toNat ≠ 0 := by
    rw [nextAcc_toNat, if_pos rfl, Config.accMax]
    omega
  refine ⟨ppmPhase_eq_accumulating _ hhigh, nextDw_unchanged c true a d rfl, rfl, fun hoff => ?_, fun hoff => ?_⟩
  · exact nextDw_pulse_bounds c hc false a d (decide_eq_true hoff)
  · exact nextDw_unchanged c false a d (decide_eq_false (Nat.not_lt.mpr hoff))

/-! ## The ranges of R30 -/

theorem resetBlock_wf (c : Config) (hc : c.legal) (draw : Mask) : (resetBlock c draw).wf c := by
  obtain ⟨-, -, ⟨hf, -⟩, -⟩ := hc
  refine ⟨hf, by simp, fun x hx => ?_, fun x hx => ?_, fun x hx => ?_, ?_⟩
  · rw [List.eq_of_mem_replicate hx]
    exact hf
  · rw [List.eq_of_mem_replicate hx]
    exact hf
  · rw [List.eq_of_mem_replicate hx]
    exact Nat.zero_le _
  · simp [BitVec.and_assoc]

theorem writeCw_wf (c : Config) (b : Block) (ch : Nat) (v : U16) (hv : v.toNat < c.f) (hb : b.wf c) :
    (b.writeCw ch v).wf c := by
  obtain ⟨hfc, hlen, hcw, hcp, hdw, hout⟩ := hb
  refine ⟨hfc, by simpa using hlen, fun x hx => ?_, hcp, hdw, hout⟩
  obtain hx | rfl := List.mem_or_eq_of_mem_set hx
  · exact hcw x hx
  · exact hv

/-- A boundary tick loads widths, which are below F, as the periods. -/
theorem pwmBoundary_wf (c : Config) (hc : c.legal) (b : Block) (hb : b.wf c) : (pwmBoundary c b).wf c := by
  obtain ⟨-, ⟨hcwl, -, haccl, hdwl⟩, hcw, -, hdw, -⟩ := hb
  refine ⟨?_, ⟨hcwl, hcwl, haccl, hdwl⟩, hcw, hcw, hdw, BitVec.zero_and⟩
  obtain ⟨-, -, ⟨hf, -⟩, -⟩ := id hc
  rw [pwmBoundary_fc, frameReload_toNat c hc]
  omega

/-- A non-boundary tick counts FC and the periods down. -/
theorem pwmCount_wf (c : Config) (hc : c.legal) (b : Block) (h : b.fc ≠ 0#16) (hb : b.wf c) :
    (pwmCount c b).wf c := by
  obtain ⟨⟨-, hn⟩, -⟩ := hc
  obtain ⟨hfc, ⟨hcwl, hcpl, haccl, hdwl⟩, hcw, hcp, hdw, -⟩ := hb
  refine ⟨?_, ⟨hcwl, by simpa using hcpl, haccl, hdwl⟩, hcw, fun x hx => ?_, hdw, ?_⟩
  · rw [pwmCount_fc, toNat_pred b.fc h]
    omega
  · obtain ⟨y, hy, rfl⟩ := List.mem_map.mp hx
    rw [nextPeriod_toNat]
    exact Nat.lt_of_le_of_lt (Nat.sub_le _ _) (hcp y hy)
  · exact maskOf_within _ c.nPwm hn (by simp [hcpl])

theorem pwmTick_wf (c : Config) (hc : c.legal) (b : Block) (hb : b.wf c) : (pwmTick c b).wf c := by
  by_cases h : b.fc = 0#16
  · rw [pwmTick_boundary c b h]
    exact pwmBoundary_wf c hc b hb
  · rw [pwmTick_count c b h]
    exact pwmCount_wf c hc b h hb

theorem ppmTick_wf (c : Config) (hc : c.legal) (smp : Mask) (b : Block) (hb : b.wf c) : (ppmTick c smp b).wf c := by
  obtain ⟨hfc, hlen, hcw, hcp, hdw, hout⟩ := hb
  refine ⟨hfc, by simpa using hlen, hcw, hcp, fun x hx => ?_, hout⟩
  obtain ⟨ch, hch, rfl⟩ := List.mem_mapIdx.mp hx
  exact nextDw_le c hc _ _ _ (hdw _ (List.getElem_mem hch))

theorem blockAfter_wf (c : Config) (hc : c.legal) (i : Instr) (b : Block) (hb : b.wf c) : (blockAfter c i b).wf c :=
  blockAfter_induction (motive := fun b' => b'.wf c) c i b hb
    (fun ch val _ _ => writeCw_wf c b ch _ (clampw_lt c hc val) hb) (fun _ => hb)
    (fun _ _ => pwmTick_wf c hc b hb) (fun smp _ _ => ppmTick_wf c hc smp b hb)

theorem blockAfterEvent_wf (c : Config) (hc : c.legal) (draw : Mask) (e : Event) (b : Block) (hb : b.wf c) :
    (blockAfterEvent c draw e b).wf c := by
  unfold blockAfterEvent
  cases decodeEvent e with
  | op i => exact blockAfter_wf c hc i b hb
  | illegalCommand why => exact hb
  | malformedStrobe why => exact hb
  | reset => exact resetBlock_wf c hc draw

/-- Every step keeps the ranges: Reset and the idle step too. -/
theorem step_wf (s t : State) (hs : s.wf) (h : step s = .next t) : t.wf := by
  obtain ⟨hc, hcfg, ⟨-, -, hblock, -⟩ | ⟨e, rest, -, -, -, hblock⟩⟩ := step_cases s t h
  · rw [State.wf, hcfg, hblock]
    exact hs
  · rw [State.wf, hcfg, hblock]
    exact ⟨hc, blockAfterEvent_wf s.cfg hc _ e s.block hs.2⟩

/-! ## The widths loaded at the last boundary tick (R30) -/

theorem blockAfterEvent_op (c : Config) (draw : Mask) (e : Event) (i : Instr) (b : Block)
    (hd : decodeEvent e = .op i) : blockAfterEvent c draw e b = blockAfter c i b := by
  simp only [blockAfterEvent, hd]

theorem blockAfterEvent_reset (c : Config) (draw : Mask) (e : Event) (b : Block) (hd : decodeEvent e = .reset) :
    blockAfterEvent c draw e b = resetBlock c draw := by
  simp only [blockAfterEvent, hd]

theorem blockAfterEvent_illegalCommand (c : Config) (draw : Mask) (e : Event) (b : Block) (why : DecodeReject)
    (hd : decodeEvent e = .illegalCommand why) : blockAfterEvent c draw e b = b := by
  simp only [blockAfterEvent, hd]

theorem boundaryNext_iff (s : State) (e : Event) (rest : List Event) (hs : s.schedule = e :: rest) :
    boundaryNext s = true ↔ decodeEvent e = .op .tickpwm ∧ s.block.pwmArmed = true ∧ s.block.fc = 0#16 := by
  simp [boundaryNext, hs, isPwmTick, and_assoc]

theorem loadedNext_nil (s : State) (loaded : List U16) (hs : s.schedule = []) : loadedNext s loaded = loaded := by
  simp [loadedNext, hs]

theorem loadedNext_reset (s : State) (loaded : List U16) (e : Event) (rest : List Event)
    (hs : s.schedule = e :: rest) (hd : decodeEvent e = .reset) :
    loadedNext s loaded = List.replicate s.cfg.nPwm 0#16 := by
  simp [loadedNext, hs, isReset, hd]

theorem loadedNext_boundary (s : State) (loaded : List U16) (e : Event) (rest : List Event)
    (hs : s.schedule = e :: rest) (hb : boundaryNext s = true) : loadedNext s loaded = s.block.cw := by
  obtain ⟨hd, -, -⟩ := (boundaryNext_iff s e rest hs).mp hb
  simp [loadedNext, hs, isReset, hd, hb]

theorem loadedNext_same (s : State) (loaded : List U16) (e : Event) (rest : List Event)
    (hs : s.schedule = e :: rest) (hd : decodeEvent e ≠ .reset) (hb : boundaryNext s = false) :
    loadedNext s loaded = loaded := by
  simp [loadedNext, hs, isReset, hd, hb]

theorem getD_map_nextPeriod (cp : List U16) (c : Nat) :
    ((cp.map nextPeriod).getD c 0#16).toNat = (cp.getD c 0#16).toNat - 1 := by
  rw [← nextPeriod_toNat, ← List.getD_map cp 0#16 nextPeriod]
  rfl

/-- What a step makes of the periods: they become the loaded widths at Reset and at a boundary tick; otherwise no width
is loaded, and they stay or count down. -/
theorem step_cp_cases (s t : State) (loaded : List U16) (h : step s = .next t) :
    t.block.cp = loadedNext s loaded ∨
      loadedNext s loaded = loaded ∧ (t.block.cp = s.block.cp ∨ t.block.cp = s.block.cp.map nextPeriod) := by
  obtain ⟨-, -, ⟨hs, -, hblock, -⟩ | ⟨e, rest, hs, hreal, -, hblock⟩⟩ := step_cases s t h
  · exact .inr ⟨loadedNext_nil s loaded hs, .inl (by rw [hblock])⟩
  rw [hblock]
  cases hd : decodeEvent e with
  | reset =>
    left
    rw [blockAfterEvent_reset _ _ e _ hd, resetBlock_cp, loadedNext_reset s loaded e rest hs hd]
  | malformedStrobe why => simp [isReal, hd] at hreal
  | illegalCommand why =>
    have hb : boundaryNext s = false := by simp [boundaryNext, hs, isPwmTick, hd]
    right
    refine ⟨loadedNext_same s loaded e rest hs (by simp [hd]) hb, .inl ?_⟩
    rw [blockAfterEvent_illegalCommand _ _ e _ why hd]
  | op i =>
    rw [blockAfterEvent_op _ _ e i _ hd]
    cases hb : boundaryNext s with
    | true =>
      obtain ⟨hd', harmed, hfc⟩ := (boundaryNext_iff s e rest hs).mp hb
      obtain rfl : i = .tickpwm := by simpa [hd] using hd'
      left
      rw [blockAfter_tickpwm_armed _ _ harmed, pwmTick_boundary _ _ hfc, pwmBoundary_cp,
        loadedNext_boundary s loaded e rest hs hb]
    | false =>
      right
      refine ⟨loadedNext_same s loaded e rest hs (by simp [hd]) hb, ?_⟩
      refine blockAfter_induction (motive := fun b' => b'.cp = s.block.cp ∨ b'.cp = s.block.cp.map nextPeriod)
        s.cfg i s.block (.inl rfl) (fun _ _ _ _ => .inl rfl) (fun _ => .inl rfl) ?_ (fun _ _ _ => .inl rfl)
      rintro rfl harmed
      have hfc : s.block.fc ≠ 0#16 := fun hfc => by
        simp [(boundaryNext_iff s e rest hs).mpr ⟨hd, harmed, hfc⟩] at hb
      rw [pwmTick_count _ _ hfc, pwmCount_cp]
      exact .inr rfl

/-- Settles O41: the block stays within its ranges, and a period that is not just loaded is at most what it was. -/
theorem stepKeepsRanges : Obligations.StepKeepsRanges := by
  rintro s t loaded ⟨hwf, hlen, hle⟩ h
  have hwf' : t.wf := step_wf s t hwf h
  obtain ⟨-, hcfg, -⟩ := step_cases s t h
  refine ⟨hwf', ?_⟩
  obtain hcp | ⟨hsame, hcp⟩ := step_cp_cases s t loaded h
  · obtain ⟨-, -, ⟨-, hcpl, -, -⟩, -⟩ := hwf'
    rw [← hcp]
    exact ⟨hcpl, fun _ _ => le_rfl⟩
  · rw [hsame, hcfg]
    refine ⟨hlen, fun c hc => ?_⟩
    obtain hcp | hcp := hcp
    · rw [hcp]
      exact hle c hc
    · rw [hcp, getD_map_nextPeriod]
      exact (Nat.sub_le _ 1).trans (hle c hc)

/-- Settles O42: Reset clears the periods along with the loaded widths. -/
theorem resetWithinRanges : Obligations.ResetWithinRanges := fun c hc =>
  ⟨⟨hc, resetBlock_wf c hc _⟩, List.length_replicate, fun _ _ => le_rfl⟩

/-! ## The place in the frame (R19, R80) -/

/-- After `n` armed PWM ticks, counted from FC = 0: FC and the count come to a whole number of frames, and FC = F - 1,
which only a boundary tick leaves, goes with every line low (R85). -/
structure AtTick (c : Config) (n : Nat) (b : Block) : Prop where
  dvd : c.f ∣ b.fc.toNat + n
  low : n ≠ 0 → b.fc.toNat = c.f - 1 → b.out = 0#16

theorem dvd_add_succ_iff (f x k : Nat) (hx : x < f) : f ∣ x + (k + 1) ↔ x = f - 1 - k % f := by
  have hr : k % f < f := Nat.mod_lt k (by omega)
  have hsplit : x + (k + 1) = f * (k / f) + (x + k % f + 1) := by
    have := Nat.div_add_mod k f
    omega
  rw [hsplit, Nat.dvd_add_right (Nat.dvd_mul_right f _)]
  constructor
  · intro h
    have := Nat.eq_of_dvd_of_lt_two_mul (by omega) h (by omega)
    omega
  · intro h
    rw [show x + k % f + 1 = f by omega]

/-- FC is 0 exactly after a whole number of frames, so tick n with n mod F = 0 is the boundary tick. -/
theorem eq_zero_iff_mod_eq_zero (f x n : Nat) (hx : x < f) (h : f ∣ x + n) : x = 0 ↔ n % f = 0 := by
  rw [← Nat.dvd_iff_mod_eq_zero]
  constructor
  · rintro rfl
    rwa [Nat.zero_add] at h
  · intro hn
    exact Nat.eq_zero_of_dvd_of_lt ((Nat.dvd_add_left hn).mp h) hx

theorem fc_eq_zero_iff (b : Block) : b.fc = 0#16 ↔ b.fc.toNat = 0 := BitVec.toNat_eq

theorem pwmTick_dvd (c : Config) (hc : c.legal) (n : Nat) (b : Block) (h : c.f ∣ b.fc.toNat + n) :
    c.f ∣ (pwmTick c b).fc.toNat + (n + 1) := by
  by_cases hfc : b.fc = 0#16
  · obtain ⟨-, -, ⟨hf, -⟩, -⟩ := id hc
    rw [(fc_eq_zero_iff b).mp hfc, Nat.zero_add] at h
    rw [pwmTick_boundary c b hfc, pwmBoundary_fc, frameReload_toNat c hc,
      show c.f - 1 + (n + 1) = c.f + n by omega]
    exact (Nat.dvd_add_right (dvd_refl c.f)).mpr h
  · have hpos : b.fc.toNat ≠ 0 := fun h0 => hfc ((fc_eq_zero_iff b).mpr h0)
    rw [pwmTick_count c b hfc, pwmCount_fc, toNat_pred b.fc hfc]
    rwa [show b.fc.toNat - 1 + (n + 1) = b.fc.toNat + n by omega]

theorem AtTick.pwmTick {c : Config} {n : Nat} {b : Block} (h : AtTick c n b) (hc : c.legal) (hb : b.wf c) :
    AtTick c (n + 1) (pwmTick c b) := by
  refine ⟨pwmTick_dvd c hc n b h.dvd, fun _ hlast => ?_⟩
  by_cases hfc : b.fc = 0#16
  · rw [pwmTick_boundary c b hfc, pwmBoundary_out]
  · have hpos : b.fc.toNat ≠ 0 := fun h0 => hfc ((fc_eq_zero_iff b).mpr h0)
    obtain ⟨hlt, -⟩ := hb
    rw [pwmTick_count c b hfc, pwmCount_fc, toNat_pred b.fc hfc] at hlast
    omega

/-- What is not a PWM tick leaves the place in the frame as it was. -/
theorem AtTick.congr {c : Config} {n : Nat} {b b' : Block} (h : AtTick c n b) (hfc : b'.fc = b.fc)
    (hout : b'.out = b.out) : AtTick c n b' :=
  ⟨by rw [hfc]; exact h.dvd, by rw [hfc, hout]; exact h.low⟩

/-- An ordinary event is an operation or an illegal command. -/
theorem ordinary_cases (e : Event) (h : isOrdinary e = true) :
    (∃ i, decodeEvent e = .op i) ∨ ∃ why, decodeEvent e = .illegalCommand why := by
  cases hd : decodeEvent e <;> simp [isOrdinary, isReal, isReset, hd] at h ⊢

theorem isPwmTick_iff (e : Event) : isPwmTick e = true ↔ decodeEvent e = .op .tickpwm := decide_eq_true_iff

theorem eq_tickpwm_of_mnemonic (i : Instr) (h : i.mnemonic = .tickpwm) : i = .tickpwm := by
  cases i with
  | tickpwm => rfl
  | _ => nomatch h

/-- An armed PWM tick moves the frame on by one; any other ordinary event leaves it; none disarms the engine. -/
theorem AtTick.afterEvent {c : Config} {n : Nat} {b : Block} (h : AtTick c n b) (hc : c.legal) (hb : b.wf c)
    (harmed : b.pwmArmed = true) (draw : Mask) (e : Event) (he : isOrdinary e = true) :
    AtTick c (n + if isPwmTick e = true then 1 else 0) (blockAfterEvent c draw e b) ∧
      (blockAfterEvent c draw e b).pwmArmed = true := by
  obtain ⟨i, hd⟩ | ⟨why, hd⟩ := ordinary_cases e he
  · rw [blockAfterEvent_op c draw e i b hd]
    refine ⟨?_, blockAfter_pwmArmed c i b harmed⟩
    by_cases hi : i = .tickpwm
    · subst hi
      rw [if_pos ((isPwmTick_iff e).mpr hd), blockAfter_tickpwm_armed c b harmed]
      exact h.pwmTick hc hb
    · obtain ⟨-, hfc, hout⟩ := blockAfter_cp_fc_out c i b (mt (eq_tickpwm_of_mnemonic i) hi)
      rw [if_neg (by simp [isPwmTick, hd, hi])]
      exact h.congr hfc hout
  · rw [blockAfterEvent_illegalCommand c draw e b why hd, if_neg (by simp [isPwmTick, hd])]
    exact ⟨h, harmed⟩

theorem blockAfterEvents_wf (c : Config) (hc : c.legal) (es : List Event) (b : Block) (hb : b.wf c) :
    (blockAfterEvents c es b).wf c := by
  induction es generalizing b with
  | nil => exact hb
  | cons e es ih => exact ih _ (blockAfterEvent_wf c hc 0#16 e b hb)

theorem AtTick.afterEvents {c : Config} {n : Nat} {b : Block} (h : AtTick c n b) (hc : c.legal) (hb : b.wf c)
    (harmed : b.pwmArmed = true) (es : List Event) (hes : ∀ e ∈ es, isOrdinary e = true) :
    AtTick c (n + pwmTicks es) (blockAfterEvents c es b) := by
  induction es generalizing b n with
  | nil => exact h
  | cons e es ih =>
    obtain ⟨h', harmed'⟩ := h.afterEvent hc hb harmed 0#16 e (hes e List.mem_cons_self)
    have hrest := ih h' (blockAfterEvent_wf c hc 0#16 e b hb) harmed' fun x hx => hes x (List.mem_cons_of_mem e hx)
    rwa [pwmTicks, List.countP_cons, Nat.add_comm (es.countP isPwmTick), ← Nat.add_assoc]

/-- Settles O47: counted from FC = 0, tick k leaves FC and k + 1 at a whole number of frames, which fixes FC. -/
theorem framePhase : Obligations.FramePhase := by
  rintro s es k ⟨hc, hb⟩ harmed hfc hes hk
  obtain ⟨t, hrun, -, -, hblock⟩ := runEvents_ordinary s hc es hes
  have hstart : AtTick s.cfg 0 s.block := ⟨by simp [hfc], fun h => absurd rfl h⟩
  have hend : AtTick s.cfg (k + 1) t.block := by
    rw [hblock, ← hk, ← Nat.zero_add (pwmTicks es)]
    exact hstart.afterEvents hc hb harmed es hes
  have hlt : t.block.fc.toNat < s.cfg.f := by
    rw [hblock]
    exact (blockAfterEvents_wf s.cfg hc es s.block hb).1
  have hmod : k % s.cfg.f < s.cfg.f := Nat.mod_lt k (by omega)
  have hval := (dvd_add_succ_iff s.cfg.f _ k hlt).mp hend.dvd
  refine ⟨t, hrun, ?_, hval, fun h0 => hend.low (by omega) (by omega)⟩
  rw [inFrameIndex, hval]
  omega

/-! ## Plausible pulses (R22, R94) -/

theorem plausibleEnd_tickppm (c : Nat) (s : State) (e : Event) (rest : List Event) (smp : Mask)
    (hs : s.schedule = e :: rest) (hd : decodeEvent e = .op (.tickppm smp)) :
    plausibleEnd c s =
      (s.block.ppmArmed && pulseEnds s.cfg (sampleBit smp c) (s.block.acc.getD c 0#32)) := by
  simp only [plausibleEnd, hs, ppmSample, hd, pulseEnds, sampleBit, Bool.and_assoc]

theorem plausibleEnd_of_mnemonic (c : Nat) (s : State) (e : Event) (rest : List Event) (i : Instr)
    (hs : s.schedule = e :: rest) (hd : decodeEvent e = .op i) (hi : i.mnemonic ≠ .tickppm) :
    plausibleEnd c s = false := by
  cases i with
  | tickppm smp => exact absurd rfl hi
  | _ => simp [plausibleEnd, hs, ppmSample, hd]

/-- DW[c] after a PPM tick: from 1 to DW_MAX where a plausible pulse ends, as it was elsewhere. -/
theorem blockAfter_tickppm_dw (c : Config) (hc : c.legal) (smp : Mask) (b : Block) (ch : Nat) (d : U16)
    (hd : b.dw[ch]? = some d) :
    ∃ d', (blockAfter c (.tickppm smp) b).dw[ch]? = some d' ∧
      if b.ppmArmed && pulseEnds c (sampleBit smp ch) (b.acc.getD ch 0#32) then 1 ≤ d'.toNat else d' = d := by
  cases harmed : b.ppmArmed with
  | false => exact ⟨d, by rw [blockAfter_tickppm_unarmed c smp b harmed, hd], rfl⟩
  | true =>
    rw [blockAfter_tickppm_armed c smp b harmed]
    refine ⟨_, by rw [ppmTick_dw_get, hd, Option.map_some], ?_⟩
    cases hp : pulseEnds c (sampleBit smp ch) (b.acc.getD ch 0#32) with
    | false => exact nextDw_unchanged c _ _ d hp
    | true => exact (nextDw_pulse_bounds c hc _ _ d hp).1

/-- DW[c] after any ordinary event: at least 1 where a plausible pulse ends, as it was elsewhere (R22). -/
theorem blockAfterEvent_dw (s : State) (hc : s.cfg.legal) (e : Event) (rest : List Event) (draw : Mask) (c : Nat)
    (d : U16) (hs : s.schedule = e :: rest) (he : isOrdinary e = true) (hd : s.block.dw[c]? = some d) :
    ∃ d', (blockAfterEvent s.cfg draw e s.block).dw[c]? = some d' ∧
      if plausibleEnd c s then 1 ≤ d'.toNat else d' = d := by
  obtain ⟨i, he⟩ | ⟨why, he⟩ := ordinary_cases e he
  · rw [blockAfterEvent_op _ draw e i _ he]
    by_cases hi : i.mnemonic = .tickppm
    · cases i with
      | tickppm smp =>
        rw [plausibleEnd_tickppm c s e rest smp hs he]
        exact blockAfter_tickppm_dw s.cfg hc smp s.block c d hd
      | _ => nomatch hi
    · obtain ⟨-, hdw⟩ := blockAfter_acc_dw s.cfg i s.block hi
      rw [plausibleEnd_of_mnemonic c s e rest i hs he hi, hdw]
      exact ⟨d, hd, rfl⟩
  · have hp : plausibleEnd c s = false := by simp [plausibleEnd, hs, ppmSample, he]
    rw [blockAfterEvent_illegalCommand _ draw e _ why he, hp]
    exact ⟨d, hd, rfl⟩

/-- Over any ordinary events DW[c] stays within its range, and is nonzero at the end exactly when it was nonzero or a
plausible pulse has ended. -/
theorem runEvents_dw (s : State) (hwf : s.wf) (es : List Event) (hes : ∀ e ∈ es, isOrdinary e = true) (c : Nat)
    (d : U16) (hd : s.block.dw[c]? = some d) :
    ∃ t d', runEvents s es = .next t ∧ t.block.dw[c]? = some d' ∧ d'.toNat ≤ s.cfg.dwMax ∧
      (1 ≤ d'.toNat ↔ 1 ≤ d.toNat ∨ occursWithin (plausibleEnd c) es.length (scheduled s es) = true) := by
  induction es generalizing s d with
  | nil =>
    obtain ⟨-, -, -, -, -, hdw, -⟩ := id hwf
    exact ⟨_, d, runEvents_nil s, hd, hdw d (List.mem_of_getElem? hd), by simp [occursWithin_zero]⟩
  | cons e es ih =>
    have he := hes e List.mem_cons_self
    obtain ⟨t, hstep, hcfg, hsched, hblock⟩ :=
      step_completes (scheduled s (e :: es)) hwf.1 e es rfl ((isOrdinary_iff e).mp he).1
    obtain ⟨d₁, hd₁, hpulse⟩ :=
      blockAfterEvent_dw (scheduled s (e :: es)) hwf.1 e es (Config.outInit s.draws) c d rfl he hd
    obtain ⟨u, d', hrun, hd', hle, hiff⟩ := ih t (step_wf (scheduled s (e :: es)) t hwf hstep)
      (fun x hx => hes x (List.mem_cons_of_mem e hx)) d₁ (hblock ▸ hd₁)
    refine ⟨u, d', by rw [runEvents_cons s t e es hstep, hrun], hd', hcfg ▸ hle, ?_⟩
    rw [hiff, List.length_cons, occursWithin_succ _ _ _ t hstep, show scheduled t es = t by rw [← hsched]; rfl]
    cases hp : plausibleEnd c (scheduled s (e :: es)) with
    | true =>
      rw [hp, if_pos rfl] at hpulse
      simp [hpulse]
    | false =>
      obtain rfl : d₁ = d := by simpa [hp] using hpulse
      simp

/-- Settles O57: DW[c] starts at 0, so it is nonzero exactly when a plausible pulse has ended. -/
theorem zeroUntilFirstPlausiblePulse : Obligations.ZeroUntilFirstPlausiblePulse := by
  intro s es c hwf hd hes
  obtain ⟨t, d, hrun, hd', hle, hiff⟩ := runEvents_dw s hwf es hes c 0#16 hd
  exact ⟨t, d, hrun, hd', hle, by simpa using hiff⟩

/-! ## The block and its history (R19, R47, R82, R99, R106) -/

/-- Only the configuration and the block stand in `Follows`. -/
theorem Follows.congr {h : History} {s t : State} (hF : Follows h s) (hcfg : t.cfg = s.cfg)
    (hblock : t.block = s.block) : Follows h t := by
  obtain ⟨cfg, block, schedule, response, drive, draws⟩ := t
  obtain rfl : cfg = s.cfg := hcfg
  obtain rfl : block = s.block := hblock
  exact { hF with }

/-- A block right after Reset follows the history in which nothing has come. -/
theorem follows_start (t : State) (draw : Mask) (hc : t.cfg.legal) (hl : t.cfg.literalDecrement = false)
    (hblock : t.block = resetBlock t.cfg draw) : Follows History.start t where
  wf := ⟨hc, hblock ▸ resetBlock_wf t.cfg hc draw⟩
  normative := hl
  pwmArmed := by simp [hblock, Block.pwmArmed, History.start]
  ppmArmed := by simp [hblock, Block.ppmArmed, History.start]
  cw c hlt := by simp [hblock, hlt, History.start]
  acc c hlt := by simp [hblock, hlt, History.start]
  dw c hlt := by simp [hblock, hlt, History.start]
  beforeFirstTick _ := ⟨by rw [hblock, resetBlock_fc], fun c hlt => by simp [hblock, hlt]⟩
  inFrame h := absurd rfl h

/-- Settles O60: the block of `State.resetWith` is one right after Reset. -/
theorem resetFollowsStart : Obligations.ResetFollowsStart := fun c hc hl =>
  follows_start (State.resetWith c) _ hc hl rfl

/-- The stored width is the commanded one of the history (R71). -/
theorem clampw_toNat_eq (c : Config) (hc : c.legal) (val : Int) :
    (clampw c val).toNat = (min (max val 0) ((c.f : Int) - 1)).toNat := by
  have h := clampw_toNat c hc val
  obtain ⟨-, -, ⟨hf, -⟩, -⟩ := hc
  unfold clamp at h
  split at h
  · omega
  · split at h <;> omega

theorem Follows.afterOp_setw {h : History} {s : State} (hF : Follows h s) (ch : Nat) (val : Int) :
    Follows (h.afterOp s.cfg (.setw ch val)) { s with block := blockAfter s.cfg (.setw ch val) s.block } := by
  obtain ⟨hc, hb⟩ := hF.wf
  by_cases hch : ch < s.cfg.nPwm
  · rw [blockAfter_setw_valid _ ch val _ hch]
    refine { hF with
      wf := ⟨hc, writeCw_wf _ _ ch _ (clampw_lt _ hc val) hb⟩
      cw := fun c (hlt : c < s.cfg.nPwm) => ?_ }
    obtain ⟨-, ⟨hlen, -⟩, -⟩ := hb
    by_cases heq : c = ch
    · subst heq
      simp [History.afterOp, hlen, hlt, clampw_toNat_eq s.cfg hc val]
    · simpa [History.afterOp, heq, List.getElem?_set_ne (Ne.symm heq)] using hF.cw c hlt
  · rw [blockAfter_setw_invalid _ ch val _ hch]
    refine { hF with cw := fun c (hlt : c < s.cfg.nPwm) => ?_ }
    have hne : c ≠ ch := by omega
    simpa [History.afterOp, hne] using hF.cw c hlt

theorem Follows.afterOp_init {h : History} {s : State} (hF : Follows h s) :
    Follows (h.afterOp s.cfg .init) { s with block := blockAfter s.cfg .init s.block } := by
  rw [blockAfter_init]
  exact { hF with pwmArmed := pwmArmed_of_ctrl _ rfl, ppmArmed := ppmArmed_of_ctrl _ rfl }

/-- FC and the armed ticks so far come to a whole number of frames (R19). -/
theorem Follows.dvd {h : History} {s : State} (hF : Follows h s) : s.cfg.f ∣ s.block.fc.toNat + h.ticks := by
  obtain ⟨-, ⟨hlt, -⟩⟩ := hF.wf
  cases hk : h.ticks with
  | zero =>
    obtain ⟨hfc, -⟩ := hF.beforeFirstTick hk
    simp [hfc]
  | succ k =>
    obtain ⟨hfc, -⟩ := hF.inFrame (by omega)
    rw [dvd_add_succ_iff _ _ k hlt, hfc, History.inFrame, hk, Nat.add_sub_cancel]

/-- The next armed PWM tick loads new widths exactly when it is a boundary tick (R80). -/
theorem Follows.fc_eq_zero_iff {h : History} {s : State} (hF : Follows h s) :
    s.block.fc = 0#16 ↔ h.ticks % s.cfg.f = 0 := by
  obtain ⟨-, ⟨hlt, -⟩⟩ := hF.wf
  rw [Machine.fc_eq_zero_iff]
  exact eq_zero_iff_mod_eq_zero _ _ _ hlt hF.dvd

/-- FC counts down exactly while the in-frame index counts up (R80). -/
theorem Follows.inFrame_succ {h : History} {s : State} (hF : Follows h s) (hfc : s.block.fc ≠ 0#16) :
    (h.pwmTick s.cfg).inFrame s.cfg = h.inFrame s.cfg + 1 := by
  obtain ⟨hc, ⟨hlt, -⟩⟩ := hF.wf
  have hticks : h.ticks ≠ 0 := fun h0 => hfc (hF.beforeFirstTick h0).1
  obtain ⟨hbefore, -⟩ := hF.inFrame hticks
  have hdvd := pwmTick_dvd s.cfg hc h.ticks s.block hF.dvd
  rw [pwmTick_count _ _ hfc, pwmCount_fc, toNat_pred _ hfc] at hdvd
  have hafter := (dvd_add_succ_iff s.cfg.f _ h.ticks (by omega)).mp hdvd
  have hpos : s.block.fc.toNat ≠ 0 := mt (Machine.fc_eq_zero_iff s.block).mpr hfc
  have hmod : h.ticks % s.cfg.f < s.cfg.f := Nat.mod_lt _ (by omega)
  change h.ticks % s.cfg.f = _
  omega

/-- A boundary tick starts a frame at index 0 with the commanded widths. -/
theorem Follows.boundaryTick {h : History} {s : State} (hF : Follows h s) (hfc : s.block.fc = 0#16) :
    Follows (h.pwmTick s.cfg) { s with block := pwmBoundary s.cfg s.block } := by
  obtain ⟨hc, hb⟩ := hF.wf
  have hmod : h.ticks % s.cfg.f = 0 := hF.fc_eq_zero_iff.mp hfc
  have hindex : (h.pwmTick s.cfg).inFrame s.cfg = 0 := hmod
  have hloaded : (h.pwmTick s.cfg).loaded = h.commanded := if_pos hmod
  refine { hF with
    wf := ⟨hc, pwmBoundary_wf _ hc _ hb⟩
    beforeFirstTick := fun h0 => absurd h0 (Nat.succ_ne_zero _)
    inFrame := fun _ => ⟨?_, fun c (hlt : c < s.cfg.nPwm) => ⟨?_, ?_⟩⟩ }
  · rw [hindex]
    exact frameReload_toNat _ hc
  · rw [hindex, hloaded, Nat.sub_zero]
    exact hF.cw c hlt
  · simp [hindex, Block.outBit]

/-- Inside a frame the index goes up by one, the periods go down by one, and a line is high while its period lasts. -/
theorem Follows.countTick {h : History} {s : State} (hF : Follows h s) (hfc : s.block.fc ≠ 0#16) :
    Follows (h.pwmTick s.cfg) { s with block := pwmCount s.cfg s.block } := by
  obtain ⟨hc, hb⟩ := hF.wf
  have hmod : h.ticks % s.cfg.f ≠ 0 := mt hF.fc_eq_zero_iff.mpr hfc
  have hticks : h.ticks ≠ 0 := fun h0 => hmod (by rw [h0, Nat.zero_mod])
  obtain ⟨hfcval, hframe⟩ := hF.inFrame hticks
  have hindex : (h.pwmTick s.cfg).inFrame s.cfg = h.inFrame s.cfg + 1 := hF.inFrame_succ hfc
  refine { hF with
    wf := ⟨hc, pwmCount_wf _ hc _ hfc hb⟩
    beforeFirstTick := fun h0 => absurd h0 (Nat.succ_ne_zero _)
    inFrame := fun _ => ⟨?_, fun c (hlt : c < s.cfg.nPwm) => ?_⟩ }
  · rw [hindex, pwmCount_fc, toNat_pred _ hfc, hfcval, Nat.sub_sub]
  · obtain ⟨hcp, -⟩ := hframe c hlt
    obtain ⟨p, hp, hpval⟩ := Option.map_eq_some_iff.mp hcp
    obtain ⟨⟨-, hn⟩, -⟩ := hc
    have hloaded : (h.pwmTick s.cfg).loaded = h.loaded := if_neg hmod
    rw [hindex, hloaded]
    constructor
    · simp [hp, nextPeriod_toNat, hpval, Nat.sub_sub]
    · have hc16 : c < 16 := by omega
      simp [Block.outBit, getLsbD_maskOf _ c hc16, hp, channelHigh_normative _ hF.normative, hpval]

theorem Follows.afterOp_tickpwm {h : History} {s : State} (hF : Follows h s) :
    Follows (h.afterOp s.cfg .tickpwm) { s with block := blockAfter s.cfg .tickpwm s.block } := by
  cases harmed : h.armed with
  | false =>
    rw [blockAfter_tickpwm_unarmed _ _ (hF.pwmArmed.trans harmed)]
    simpa [History.afterOp, harmed] using hF
  | true =>
    rw [blockAfter_tickpwm_armed _ _ (hF.pwmArmed.trans harmed)]
    rw [History.afterOp, if_pos harmed]
    by_cases hfc : s.block.fc = 0#16
    · rw [pwmTick_boundary _ _ hfc]
      exact hF.boundaryTick hfc
    · rw [pwmTick_count _ _ hfc]
      exact hF.countTick hfc

theorem min_min_add_one (n m : Nat) : min (min n m + 1) m = min (n + 1) m := by omega

/-- DW after a PPM tick is what R99 says of the pulse that ACC has measured. -/
theorem nextDw_toNat_eq (c : Config) (hc : c.legal) (high : Bool) (a : U32) (d : U16) :
    (nextDw c high a d).toNat =
      if high = false ∧ c.offset < a.toNat then min (a.toNat - c.offset) c.dwMax else d.toNat := by
  have hiff : pulseEnds c high a = true ↔ high = false ∧ c.offset < a.toNat := by simp [pulseEnds]
  cases hp : pulseEnds c high a with
  | false => rw [nextDw_unchanged c high a d hp, if_neg (by simp [← hiff, hp])]
  | true => rw [nextDw_toNat c hc high a d hp, if_pos (hiff.mp hp)]

/-- A high sample lengthens the pulse in the history and in ACC; a low one ends it, and decodes it if plausible. -/
theorem Follows.ppmTick {h : History} {s : State} (hF : Follows h s) (smp : Mask) :
    Follows (h.ppmTick s.cfg smp) { s with block := ppmTick s.cfg smp s.block } := by
  obtain ⟨hc, hb⟩ := hF.wf
  refine { hF with
    wf := ⟨hc, ppmTick_wf _ hc smp _ hb⟩
    acc := fun c hlt => ?_
    dw := fun c hlt => ?_ }
  · obtain ⟨a, ha, haval⟩ := Option.map_eq_some_iff.mp (hF.acc c hlt)
    simp only [ppmTick_acc_get, ha, Option.map_some, nextAcc_toNat, haval, History.ppmTick, sampleBit]
    cases smp.getLsbD c with
    | false => rfl
    | true => exact congrArg some (min_min_add_one _ _)
  · obtain ⟨a, ha, haval⟩ := Option.map_eq_some_iff.mp (hF.acc c hlt)
    obtain ⟨d, hd, hdval⟩ := Option.map_eq_some_iff.mp (hF.dw c hlt)
    have hget : s.block.acc.getD c 0#32 = a := by rw [List.getD_eq_getElem?_getD, ha, Option.getD_some]
    simp only [ppmTick_dw_get, hget, hd, Option.map_some, nextDw_toNat_eq _ hc, haval, hdval, History.ppmTick,
      sampleBit]

theorem Follows.afterOp_tickppm {h : History} {s : State} (hF : Follows h s) (smp : Mask) :
    Follows (h.afterOp s.cfg (.tickppm smp)) { s with block := blockAfter s.cfg (.tickppm smp) s.block } := by
  cases harmed : h.armed with
  | false =>
    rw [blockAfter_tickppm_unarmed _ smp _ (hF.ppmArmed.trans harmed)]
    simpa [History.afterOp, harmed] using hF
  | true =>
    rw [blockAfter_tickppm_armed _ smp _ (hF.ppmArmed.trans harmed), History.afterOp, if_pos harmed]
    exact hF.ppmTick smp

/-- Every operation keeps the block where its history puts it. -/
theorem Follows.afterOp {h : History} {s : State} (hF : Follows h s) (i : Instr) :
    Follows (h.afterOp s.cfg i) { s with block := blockAfter s.cfg i s.block } := by
  cases i with
  | setw ch val => exact hF.afterOp_setw ch val
  | getw ch => exact hF
  | init => exact hF.afterOp_init
  | tickpwm => exact hF.afterOp_tickpwm
  | tickppm smp => exact hF.afterOp_tickppm smp

/-- Settles O59: the idle step and an illegal command change neither block nor history, Reset starts both anew, and
an operation is `Follows.afterOp`. The idle step is log entry 2, the high bits of OUT within `wf` log entry 12. -/
theorem stepFollowsHistory : Obligations.StepFollowsHistory := by
  intro s t h hF hstep
  obtain ⟨hc, hcfg, ⟨hs, -, hblock, -⟩ | ⟨e, rest, hs, hreal, -, hblock⟩⟩ := step_cases s t hstep
  · rw [historyNext_nil s h hs]
    exact hF.congr hcfg hblock
  rw [historyNext_cons s h e rest hs]
  cases hd : decodeEvent e with
  | op i =>
    rw [blockAfterEvent_op _ _ e i _ hd] at hblock
    rw [next_op _ e h i hd]
    exact (hF.afterOp i).congr hcfg hblock
  | illegalCommand why =>
    rw [blockAfterEvent_illegalCommand _ _ e _ why hd] at hblock
    simpa only [History.next, hd] using hF.congr hcfg hblock
  | malformedStrobe why => simp [isReal, hd] at hreal
  | reset =>
    rw [blockAfterEvent_reset _ _ e _ hd, ← hcfg] at hblock
    have hstart := follows_start t _ (hcfg ▸ hc) (hcfg ▸ hF.normative) hblock
    simpa only [History.next, hd] using hstart

end Sys2Proof.Machine
end

section
/-! PROOFS. O7, O15, O23, O38, O39, O40 and O51, of the family 20_memory.md. First the one next state of every
operation with its outputs, and which changes of the block commute; then the order of operations (R41 to R44), the last
commanded width (R47), and the byte-serial link (R35). -/

namespace Sys2Proof.Machine

/-! ## What an operation answers and drives -/

/-- The response of an operation at a block (R58): only host commands answer. -/
def responseAfter (c : Config) (i : Instr) (b : Block) : Option Word :=
  match i with
  | .setw ch _ => some (responseWord (if ch < c.nPwm then .ok else .invalidChannel) 0#16)
  | .getw ch => some (if ch < c.nPpm then responseWord .ok (b.readDw ch) else responseWord .invalidChannel 0#16)
  | .init => some (responseWord .ok 0#16)
  | .tickpwm => none
  | .tickppm _ => none

/-- The drive of an operation at a block (R81): only an armed PWM tick drives. -/
def driveAfter (c : Config) (i : Instr) (b : Block) : Option Drive :=
  match i with
  | .tickpwm => if b.pwmArmed then some (driveMasks c (pwmTick c b).out) else none
  | _ => none

/-- The machine after an operation: its block, response and drive, with its event taken. -/
def stateAfter (i : Instr) (s : State) : State :=
  complete s (blockAfter s.cfg i s.block) (responseAfter s.cfg i s.block) (driveAfter s.cfg i s.block)

@[simp] theorem stateAfter_cfg (i s) : (stateAfter i s).cfg = s.cfg := rfl
@[simp] theorem stateAfter_block (i s) : (stateAfter i s).block = blockAfter s.cfg i s.block := rfl
@[simp] theorem stateAfter_response (i s) : (stateAfter i s).response = responseAfter s.cfg i s.block := rfl
@[simp] theorem stateAfter_drive (i s) : (stateAfter i s).drive = driveAfter s.cfg i s.block := rfl

/-- Every operation completes, with exactly this next state. -/
theorem exec_eq_stateAfter (i : Instr) (s : State) : exec i s = .next (stateAfter i s) := by
  cases i with
  | setw ch val =>
    by_cases h : ch < s.cfg.nPwm
    · simp [exec_setw_valid ch val s h, stateAfter, respondOk, blockAfter, responseAfter, driveAfter, h]
    · simp [exec_setw_invalid ch val s h, stateAfter, raise, blockAfter, responseAfter, driveAfter, h]
  | getw ch =>
    by_cases h : ch < s.cfg.nPpm
    · simp [exec_getw_valid ch s h, stateAfter, respondOk, responseAfter, driveAfter, h]
    · simp [exec_getw_invalid ch s h, stateAfter, raise, responseAfter, driveAfter, h]
  | init => rfl
  | tickpwm =>
    cases h : s.block.pwmArmed with
    | false => simp [exec_tickpwm_unarmed s h, stateAfter, silent, blockAfter, responseAfter, driveAfter, h]
    | true => simp [exec_tickpwm_armed s h, stateAfter, driveOut, blockAfter, responseAfter, driveAfter, h]
  | tickppm smp =>
    cases h : s.block.ppmArmed with
    | false => simp [exec_tickppm_unarmed smp s h, stateAfter, silent, blockAfter, responseAfter, driveAfter, h]
    | true => simp [exec_tickppm_armed smp s h, stateAfter, silent, blockAfter, responseAfter, driveAfter, h]

/-! ## Changes of the block that commute -/

@[simp] theorem writeCw_pwmArmed (b : Block) (ch : Nat) (v : U16) : (b.writeCw ch v).pwmArmed = b.pwmArmed := rfl
@[simp] theorem writeCw_ppmArmed (b : Block) (ch : Nat) (v : U16) : (b.writeCw ch v).ppmArmed = b.ppmArmed := rfl
@[simp] theorem ppmTick_pwmArmed (c : Config) (smp : Mask) (b : Block) :
    (ppmTick c smp b).pwmArmed = b.pwmArmed := rfl
@[simp] theorem pwmTick_ppmArmed (c : Config) (b : Block) : (pwmTick c b).ppmArmed = b.ppmArmed := by
  simp only [Block.ppmArmed, pwmTick_ctrl]

/-- The engines share no element, so their ticks commute, at a boundary too. -/
theorem pwmTick_ppmTick (c : Config) (smp : Mask) (b : Block) :
    pwmTick c (ppmTick c smp b) = ppmTick c smp (pwmTick c b) := by
  by_cases h : b.fc = 0#16
  · rw [pwmTick_boundary c b h, pwmTick_boundary c (ppmTick c smp b) h]
    rfl
  · rw [pwmTick_count c b h, pwmTick_count c (ppmTick c smp b) h]
    rfl

/-- A non-boundary tick does not read CW. -/
theorem pwmTick_writeCw (c : Config) (b : Block) (ch : Nat) (v : U16) (h : b.fc ≠ 0#16) :
    pwmTick c (b.writeCw ch v) = (pwmTick c b).writeCw ch v := by
  rw [pwmTick_count c b h, pwmTick_count c (b.writeCw ch v) h]
  rfl

theorem ppmTick_writeCw (c : Config) (smp : Mask) (b : Block) (ch : Nat) (v : U16) :
    ppmTick c smp (b.writeCw ch v) = (ppmTick c smp b).writeCw ch v := rfl

theorem writeCw_writeCw (b : Block) (ch : Nat) (v w : U16) : (b.writeCw ch v).writeCw ch w = b.writeCw ch w := by
  simp only [Block.writeCw, List.set_set]

theorem blockAfter_tickpwm_boundary (c : Config) (b : Block) (harmed : b.pwmArmed = true) (hfc : b.fc = 0#16) :
    blockAfter c .tickpwm b = pwmBoundary c b := by
  rw [blockAfter_tickpwm_armed c b harmed, pwmTick_boundary c b hfc]

theorem blockAfter_tickpwm_tickppm (c : Config) (smp : Mask) (b : Block) :
    blockAfter c .tickpwm (blockAfter c (.tickppm smp) b) = blockAfter c (.tickppm smp) (blockAfter c .tickpwm b) := by
  cases hpwm : b.pwmArmed <;> cases hppm : b.ppmArmed <;> simp [blockAfter, hpwm, hppm, pwmTick_ppmTick]

/-- A PWM tick drives the same after a PPM tick: OUT after it does not depend on ACC and DW. -/
theorem driveAfter_tickpwm_tickppm (c : Config) (smp : Mask) (b : Block) :
    driveAfter c .tickpwm (blockAfter c (.tickppm smp) b) = driveAfter c .tickpwm b := by
  cases hppm : b.ppmArmed with
  | false => rw [blockAfter_tickppm_unarmed c smp b hppm]
  | true => simp [blockAfter_tickppm_armed c smp b hppm, driveAfter, pwmTick_ppmTick]

/-- Settles O38: both orders leave the same block, the PWM tick drives the same in both, and no tick answers. -/
theorem ticksCommute : Obligations.TicksCommute := fun s smp =>
  ⟨_, _, _, _, exec_eq_stateAfter _ s, exec_eq_stateAfter _ _, exec_eq_stateAfter _ s, exec_eq_stateAfter _ _,
    (blockAfter_tickpwm_tickppm s.cfg smp s.block).symm,
    (driveAfter_tickpwm_tickppm s.cfg smp s.block).symm, rfl, rfl⟩

/-! ## SETW against the ticks (R43) -/

/-- The ticks that SETW commutes with (R43): a PPM tick, or a PWM tick that is no boundary tick. -/
def isPlainTick (b : Block) (j : Instr) : Prop := j = .tickpwm ∧ b.fc ≠ 0#16 ∨ ∃ smp, j = .tickppm smp

/-- A plain tick commutes with a write of CW, and drives the same before and after it. -/
theorem blockAfter_writeCw (c : Config) (b : Block) (j : Instr) (hj : isPlainTick b j) (ch : Nat) (v : U16) :
    blockAfter c j (b.writeCw ch v) = (blockAfter c j b).writeCw ch v ∧
      driveAfter c j (b.writeCw ch v) = driveAfter c j b := by
  obtain ⟨rfl, hfc⟩ | ⟨smp, rfl⟩ := hj
  · cases h : b.pwmArmed <;> simp [blockAfter, driveAfter, h, pwmTick_writeCw c b ch v hfc]
  · cases h : b.ppmArmed <;> simp [blockAfter, driveAfter, h, ppmTick_writeCw]

/-- Settles O39: a plain tick commutes with the write of CW; a boundary tick copies CW as it stands, with the new
width if SETW came first and with the old one if it came second. -/
theorem setwAgainstTicks : Obligations.SetwAgainstTicks := by
  rintro s ch val ⟨-, -, ⟨hlen, -⟩, -⟩ harmed hch
  have hset : ∀ b, blockAfter s.cfg (.setw ch val) b = b.writeCw ch (clampw s.cfg val) := fun b =>
    blockAfter_setw_valid s.cfg ch val b hch
  have hlt : ch < s.block.cw.length := hlen ▸ hch
  refine ⟨fun j hj => ?_, fun hfc => ?_⟩
  · obtain ⟨hblock, hdrive⟩ := blockAfter_writeCw s.cfg s.block j hj ch (clampw s.cfg val)
    refine ⟨_, _, _, _, exec_eq_stateAfter _ s, exec_eq_stateAfter _ _, exec_eq_stateAfter _ s,
      exec_eq_stateAfter _ _, ?_, ?_, rfl⟩
    · simp [hset, hblock]
    · simp [hset, hdrive]
  · refine ⟨_, _, _, _, exec_eq_stateAfter _ s, exec_eq_stateAfter _ _, exec_eq_stateAfter _ s,
      exec_eq_stateAfter _ _, ?_, ?_, ?_⟩
    · simp [hset, blockAfter_tickpwm_boundary, harmed, hfc, hlt]
    · simp [hset, blockAfter_tickpwm_boundary, harmed, hfc]
    · simp [hset, blockAfter_tickpwm_boundary, harmed, hfc, hlt]

/-! ## GETW around an operation (R44, R46) -/

/-- GETW answers from DW[ch] and nothing else. -/
theorem responseAfter_getw_congr (c : Config) (ch : Nat) (b b' : Block) (h : b.dw[ch]? = b'.dw[ch]?) :
    responseAfter c (.getw ch) b = responseAfter c (.getw ch) b' := by
  simp only [responseAfter, Block.readDw, List.getD_eq_getElem?_getD, h]

theorem responseAfter_getw_valid (c : Config) (ch : Nat) (b : Block) (d : U16) (hch : ch < c.nPpm)
    (hd : b.dw[ch]? = some d) : responseAfter c (.getw ch) b = some (responseWord .ok d) := by
  simp [responseAfter, Block.readDw, hch, hd]

/-- Settles O40: an operation that is no PPM tick leaves DW, a PPM tick leaves DW[ch] by hypothesis, and GETW reads
DW[ch] alone. -/
theorem getwAgainstTicks : Obligations.GetwAgainstTicks := by
  intro s ch i t u v ht hu hv
  cases (exec_eq_stateAfter i s).symm.trans ht
  cases (exec_eq_stateAfter _ s).symm.trans hu
  cases (exec_eq_stateAfter _ _).symm.trans hv
  refine ⟨fun hsame => responseAfter_getw_congr s.cfg ch _ _ ?_,
    fun hch d => responseAfter_getw_valid s.cfg ch _ d hch⟩
  by_cases hi : i.mnemonic = .tickppm
  · cases i with
    | tickppm smp => exact hsame smp rfl
    | _ => nomatch hi
  · exact congrArg (·[ch]?) (blockAfter_acc_dw s.cfg i s.block hi).2

/-! ## A second INIT or SETW (R41, R111) -/

theorem blockAfter_setw_setw (c : Config) (ch : Nat) (val : Int) (b : Block) :
    blockAfter c (.setw ch val) (blockAfter c (.setw ch val) b) = blockAfter c (.setw ch val) b := by
  by_cases h : ch < c.nPwm
  · simp only [blockAfter_setw_valid c ch val _ h, writeCw_writeCw]
  · simp only [blockAfter_setw_invalid c ch val _ h]

/-- Settles O23: INIT sets both bits again, SETW stores the same width again or is refused again; neither's answer
depends on the block. -/
theorem initAndSetwIdempotent : Obligations.InitAndSetwIdempotent := by
  intro s i hi
  refine ⟨_, _, exec_eq_stateAfter i s, exec_eq_stateAfter i _, ?_⟩
  obtain rfl | ⟨ch, val, rfl⟩ := hi
  · exact ⟨by simp, rfl⟩
  · exact ⟨blockAfter_setw_setw s.cfg ch val s.block, rfl⟩

/-! ## Every event is one step (R40, R63, R113) -/

theorem step_malformedStrobe (s : State) (hc : s.cfg.legal) (e : Event) (rest : List Event)
    (hs : s.schedule = e :: rest) (he : isReal e = false) : step s = .refused .malformedStrobe := by
  rw [step_cons s hc e rest hs]
  cases hd : decodeEvent e with
  | malformedStrobe why => rfl
  | _ => simp [isReal, hd] at he

/-- Settles O15: there is no fault to end in; a real event completes and any other is refused. -/
theorem everyEventCompletes : Obligations.EveryEventCompletes := by
  refine fun s => ⟨fun r => (nomatch r), fun e rest hc hs => ⟨fun he => ?_, step_malformedStrobe s hc e rest hs⟩⟩
  obtain ⟨t, hstep, -, hsched, -⟩ := step_completes s hc e rest hs he
  exact ⟨t, hstep, hsched⟩

/-! ## The last commanded width (R47) -/

theorem lastWidth_cons (c : Config) (k : Nat) (was : U16) (e : Event) (es : List Event) :
    lastWidth c k was (e :: es) = lastWidth c k (lastWidth c k was [e]) es := rfl

theorem lastWidth_setw (c : Config) (k : Nat) (was : U16) (e : Event) (val : Int)
    (hd : decodeEvent e = .op (.setw k val)) : lastWidth c k was [e] = clampw c val := by
  simp [lastWidth, setwOf, hd]

/-- An event that is no SETW to channel `k` leaves its last width. -/
theorem lastWidth_of_setwOf_none (c : Config) (k : Nat) (was : U16) (e : Event) (h : setwOf k e = none) :
    lastWidth c k was [e] = was := by
  simp [lastWidth, h]

/-- CW[k] after an ordinary event: what a SETW to `k` stores, as it was otherwise. -/
theorem blockAfterEvent_cw (c : Config) (draw : Mask) (e : Event) (b : Block) (k : Nat) (was : U16)
    (hlen : b.cw.length = c.nPwm) (hcw : b.cw[k]? = some was) (he : isOrdinary e = true) :
    (blockAfterEvent c draw e b).cw[k]? = some (lastWidth c k was [e]) := by
  obtain ⟨i, hd⟩ | ⟨why, hd⟩ := ordinary_cases e he
  · rw [blockAfterEvent_op c draw e i b hd]
    by_cases hi : i.mnemonic = .setw
    · cases i with
      | setw ch val =>
        by_cases hch : ch = k
        · subst hch
          have hlt : ch < b.cw.length := (List.getElem?_eq_some_iff.mp hcw).1
          rw [blockAfter_setw_valid c ch val b (hlen ▸ hlt), lastWidth_setw c ch was e val hd, writeCw_cw,
            List.getElem?_set_self hlt]
        · have hsame : (blockAfter c (.setw ch val) b).cw[k]? = b.cw[k]? := by
            by_cases hvalid : ch < c.nPwm
            · rw [blockAfter_setw_valid c ch val b hvalid, writeCw_cw, List.getElem?_set_ne hch]
            · rw [blockAfter_setw_invalid c ch val b hvalid]
          rw [hsame, hcw, lastWidth_of_setwOf_none c k was e (by simp [setwOf, hd, hch])]
      | _ => nomatch hi
    · have hnone : setwOf k e = none := by
        cases i with
        | setw ch val => exact absurd rfl hi
        | _ => simp [setwOf, hd]
      rw [blockAfter_cw c i b hi, hcw, lastWidth_of_setwOf_none c k was e hnone]
  · rw [blockAfterEvent_illegalCommand c draw e b why hd, hcw,
      lastWidth_of_setwOf_none c k was e (by simp [setwOf, hd])]

/-- CW[k] after ordinary events is the last width commanded among them. -/
theorem blockAfterEvents_cw (c : Config) (hc : c.legal) (es : List Event) (b : Block) (k : Nat) (was : U16)
    (hb : b.wf c) (hcw : b.cw[k]? = some was) (hes : ∀ e ∈ es, isOrdinary e = true) :
    (blockAfterEvents c es b).cw[k]? = some (lastWidth c k was es) := by
  induction es generalizing b was with
  | nil => exact hcw
  | cons e es ih =>
    obtain ⟨-, ⟨hlen, -⟩, -⟩ := id hb
    have hnext := blockAfterEvent_cw c 0#16 e b k was hlen hcw (hes e List.mem_cons_self)
    rw [blockAfterEvents_cons, lastWidth_cons]
    exact ih _ _ (blockAfterEvent_wf c hc 0#16 e b hb) hnext fun x hx => hes x (List.mem_cons_of_mem e hx)

/-- Settles O51: the run leaves the last commanded width in CW[c], and a boundary tick copies CW to CP. -/
theorem boundaryLoadsLastWidth : Obligations.BoundaryLoadsLastWidth := by
  rintro s es c was ⟨hc, hb⟩ hcw hes
  obtain ⟨t, hrun, -, -, hblock⟩ := runEvents_ordinary s hc es hes
  have hlast : t.block.cw[c]? = some (lastWidth s.cfg c was es) := by
    rw [hblock]
    exact blockAfterEvents_cw s.cfg hc es s.block c was hb hcw hes
  refine ⟨t, hrun, hlast, fun harmed hfc => ⟨_, exec_tickpwm_armed t harmed, ?_⟩⟩
  rw [driveOut_block, pwmTick_boundary t.cfg t.block hfc, pwmBoundary_cp, hlast]

end Sys2Proof.Machine

namespace Sys2Proof

/-! ## The byte-serial link (R35) -/

/-- The bytes of a word, put back in the order of their places, are the word. -/
theorem wordOfLinkBytes_linkBytes (w : Word) : wordOfLinkBytes (linkBytes w) = some w := by
  have high : w.extractLsb' 24 8 ++ w.extractLsb' 16 8 = w.extractLsb' 16 16 :=
    BitVec.extractLsb'_append_extractLsb'_eq_extractLsb' rfl
  have upper : w.extractLsb' 16 16 ++ w.extractLsb' 8 8 = w.extractLsb' 8 24 :=
    BitVec.extractLsb'_append_extractLsb'_eq_extractLsb' rfl
  have whole : w.extractLsb' 8 24 ++ w.extractLsb' 0 8 = w.extractLsb' 0 32 :=
    BitVec.extractLsb'_append_extractLsb'_eq_extractLsb' rfl
  rw [linkBytes, wordOfLinkBytes, high, upper, whole, BitVec.extractLsb'_eq_self]

/-- Settles O7: the low byte is the head of the bytes sent, and their word is the word sent. -/
theorem linkByteOrder : Obligations.LinkByteOrder := fun w => ⟨rfl, wordOfLinkBytes_linkBytes w⟩

end Sys2Proof
end

section
/-! PROOFS. O1, O2, O3, O4, O5, O6, O10, O17 and O32, of the family 30_encoding.md. First what the decoders answer,
said once as an `↔` with the encoder; then the opcode map, the listing, and the outputs of an event. -/

namespace Sys2Proof

/-! ## What a decoder answers is what it was encoded from (R60, R63, R65) -/

/-- A word with RSV = 0 is the command word of its fields (R51). -/
theorem commandWord_fields (w : Word) (h : rsvField w = 0#4) :
    commandWord (opField w) (chField w) (valField w) = w := by
  have high : opField w ++ rsvField w = w.extractLsb' 24 8 := BitVec.extractLsb'_append_extractLsb'_eq_extractLsb' rfl
  have upper : w.extractLsb' 24 8 ++ chField w = w.extractLsb' 16 16 :=
    BitVec.extractLsb'_append_extractLsb'_eq_extractLsb' rfl
  have whole : w.extractLsb' 16 16 ++ valField w = w.extractLsb' 0 32 :=
    BitVec.extractLsb'_append_extractLsb'_eq_extractLsb' rfl
  rw [commandWord, ← h, high, upper, whole, BitVec.extractLsb'_eq_self]

/-- The encoder puts back the operands that the decoder read from SETW's fields. -/
theorem encode_setw_fields (ch : BitVec 8) (val : BitVec 16) :
    encode (.setw ch.toNat val.toInt) = commandWord 0x1#4 ch val := by
  simp [encode]

theorem encode_getw_fields (ch : BitVec 8) : encode (.getw ch.toNat) = commandWord 0x2#4 ch 0#16 := by
  simp [encode]

/-- Operands read from the fields of a word are in range (R65). -/
theorem wf_setw_fields (ch : BitVec 8) (val : BitVec 16) : (Instr.setw ch.toNat val.toInt).wf = true := by
  have hch := ch.isLt
  have hlo := val.le_toInt
  have hhi := val.toInt_lt
  simp only [Instr.wf, Bool.and_eq_true, decide_eq_true_eq]
  omega

theorem wf_getw_fields (ch : BitVec 8) : (Instr.getw ch.toNat).wf = true :=
  decide_eq_true (Nat.le_of_lt_succ ch.isLt)

/-- Everything the host decoder accepts (R60). -/
theorem decodeHost_cases (w : Word) (i : Instr) (h : decodeHost w = .op i) :
    rsvField w = 0#4 ∧
      (opField w = 0x1#4 ∧ i = .setw (chField w).toNat (valField w).toInt ∨
        opField w = 0x2#4 ∧ valField w = 0#16 ∧ i = .getw (chField w).toNat ∨
        opField w = 0x3#4 ∧ chField w = 0#8 ∧ valField w = 0#16 ∧ i = .init) := by
  unfold decodeHost at h
  split_ifs at h with htick hop hrsv hsetw hgetw hval hinit
  · cases h
    exact ⟨not_not.mp hrsv, .inl ⟨hsetw, rfl⟩⟩
  · cases h
    exact ⟨not_not.mp hrsv, .inr (.inl ⟨hgetw, not_not.mp hval, rfl⟩)⟩
  · cases h
    obtain ⟨hch, hval⟩ := not_or.mp hinit
    have hop3 : opField w = 0x3#4 := by
      by_contra h3
      exact hop ⟨hsetw, hgetw, h3⟩
    exact ⟨not_not.mp hrsv, .inr (.inr ⟨hop3, not_not.mp hch, not_not.mp hval, rfl⟩)⟩

/-- An operation that a port's decoder answers is in range, arrives on that port, and has that word. -/
theorem wf_encode_portOf_of_decodeOn (p : Port) (w : Word) (i : Instr) (h : decodeOn p w = .op i) :
    i.wf = true ∧ encode i = w ∧ portOf i = p := by
  cases p with
  | host =>
    obtain ⟨hrsv, ⟨hop, rfl⟩ | ⟨hop, hval, rfl⟩ | ⟨hop, hch, hval, rfl⟩⟩ := decodeHost_cases w i h
    · exact ⟨wf_setw_fields _ _, by rw [encode_setw_fields, ← hop, commandWord_fields w hrsv], rfl⟩
    · exact ⟨wf_getw_fields _, by rw [encode_getw_fields, ← hop, ← hval, commandWord_fields w hrsv], rfl⟩
    · exact ⟨rfl, by rw [encode, ← hop, ← hch, ← hval, commandWord_fields w hrsv], rfl⟩
  | pwm =>
    rw [decodeOn, decodePwm] at h
    split_ifs at h with hw
    cases h
    exact ⟨rfl, hw.symm, rfl⟩
  | ppm =>
    rw [decodeOn, decodePpm] at h
    split_ifs at h with hw
    obtain ⟨hop, hrsv, hch⟩ := hw
    cases h
    exact ⟨rfl, by rw [encode, ← hop, ← hch, commandWord_fields w hrsv], rfl⟩

/-- The decoder of a port and the encoder are inverse to each other. -/
theorem decodeOn_eq_op_iff (p : Port) (w : Word) (i : Instr) :
    decodeOn p w = .op i ↔ i.wf = true ∧ encode i = w ∧ portOf i = p := by
  refine ⟨wf_encode_portOf_of_decodeOn p w i, ?_⟩
  rintro ⟨hwf, rfl, rfl⟩
  exact decodeOn_portOf_encode i hwf

/-- The OP of an operation's word names the operation's port (R57). -/
@[simp] theorem portOfWord_encode (i : Instr) : portOfWord (encode i) = portOf i := by
  cases i with
  | _ => simp [portOfWord, encode, portOf]

theorem decodeWord_eq_some_iff_decodeOn (w : Word) (i : Instr) :
    decodeWord w = some i ↔ decodeOn (portOfWord w) w = .op i := by
  unfold decodeWord
  cases decodeOn (portOfWord w) w with
  | op j => simp
  | rejected why => simp

/-- A word decodes by the opcode map exactly to the operation in range that it encodes. -/
theorem decodeWord_eq_some_iff (w : Word) (i : Instr) : decodeWord w = some i ↔ i.wf = true ∧ encode i = w := by
  rw [decodeWord_eq_some_iff_decodeOn, decodeOn_eq_op_iff]
  constructor
  · rintro ⟨hwf, henc, -⟩
    exact ⟨hwf, henc⟩
  · rintro ⟨hwf, rfl⟩
    exact ⟨hwf, rfl, (portOfWord_encode i).symm⟩

/-- The assembler and the decoder are inverse to each other. -/
theorem assemble_eq_some_iff (i : Instr) (w : Word) : assemble i = some w ↔ decodeWord w = some i := by
  rw [decodeWord_eq_some_iff, assemble]
  cases i.wf with
  | false => simp
  | true => simp

/-- Settles O1: the operation in range is what its word encodes, on the map and on its port. -/
theorem decodeOfEncode : Obligations.DecodeOfEncode := by
  intro i hwf
  have hdecode : decodeWord (encode i) = some i := (decodeWord_eq_some_iff _ i).mpr ⟨hwf, rfl⟩
  exact ⟨hdecode, decodeEvent_eventOf i hwf, (assemble_eq_some_iff i _).mpr hdecode⟩

/-- Settles O2: by `decodeWord_eq_some_iff` the word is the operation's, so both name the same port. -/
theorem encodeOfDecode : Obligations.EncodeOfDecode := by
  intro w i h
  obtain ⟨hwf, rfl⟩ := (decodeWord_eq_some_iff w i).mp h
  exact ⟨hwf, rfl, by rw [eventOfWord, portOfWord_encode, eventOf]⟩

/-- Settles O5: the assembler gives the table's words, and what a word was assembled from is what it decodes to. -/
theorem workedEncodings : Obligations.WorkedEncodings := by
  intro x hx
  have hassemble : assemble x.1 = some x.2 := by
    revert x
    decide
  exact ⟨hassemble, (assemble_eq_some_iff x.1 x.2).mp hassemble⟩

/-! ## The opcode map (R56) -/

/-- An operation's word matches the row of its mnemonic. -/
theorem matches_encode (i : Instr) : (opcodeRow i.mnemonic).matches (encode i) := by
  cases i with
  | setw ch val => exact Laws.EncodesInItsRow.setw ch val
  | getw ch => exact Laws.EncodesInItsRow.getw ch
  | init => exact Laws.EncodesInItsRow.init
  | tickpwm => exact Laws.EncodesInItsRow.tickpwm
  | tickppm s => exact Laws.EncodesInItsRow.tickppm s

theorem opcodeRow_port (i : Instr) : (opcodeRow i.mnemonic).port = portOf i := by
  cases i with
  | _ => rfl

/-- A word that matches a row matches it field by field. -/
theorem fields_of_matches (r : OpcodeRow) (w : Word) (h : r.matches w) :
    opField w &&& opField r.mask = opField r.matchBits ∧ rsvField w &&& rsvField r.mask = rsvField r.matchBits ∧
      chField w &&& chField r.mask = chField r.matchBits ∧ valField w &&& valField r.mask = valField r.matchBits := by
  simp only [opField, rsvField, chField, valField, ← BitVec.extractLsb'_and, show w &&& r.mask = r.matchBits from h,
    and_self]

/-- The operation whose row a word matches: the fields that the row does not fix are its operands. -/
def operationOfRow (m : Mnemonic) (w : Word) : Instr :=
  match m with
  | .setw => .setw (chField w).toNat (valField w).toInt
  | .getw => .getw (chField w).toNat
  | .init => .init
  | .tickpwm => .tickpwm
  | .tickppm => .tickppm (valField w)

/-- A field under a mask of all ones is fixed. -/
theorem eq_of_and_allOnes {n : Nat} {x mask v : BitVec n} (h : x &&& mask = v) (hmask : mask = .allOnes n) :
    x = v := by
  rwa [hmask, BitVec.and_allOnes] at h

/-- Every row fixes OP, and RSV to 0. -/
theorem opcodeRow_fixes_op_rsv (m : Mnemonic) :
    opField (opcodeRow m).mask = .allOnes 4 ∧ rsvField (opcodeRow m).mask = .allOnes 4 ∧
      rsvField (opcodeRow m).matchBits = 0#4 := by
  cases m with
  | _ => exact ⟨rfl, rfl, rfl⟩

theorem wf_operationOfRow (m : Mnemonic) (w : Word) : (operationOfRow m w).wf = true := by
  cases m with
  | setw => exact wf_setw_fields _ _
  | getw => exact wf_getw_fields _
  | _ => rfl

/-- A word that matches a row is the encoding of the row's operation: a field that is no operand is fixed. -/
theorem encode_operationOfRow (m : Mnemonic) (w : Word) (h : (opcodeRow m).matches w) :
    encode (operationOfRow m w) = w := by
  obtain ⟨hop, hrsv, hch, hval⟩ := fields_of_matches _ w h
  obtain ⟨hopMask, hrsvMask, hrsvZero⟩ := opcodeRow_fixes_op_rsv m
  refine Eq.trans ?_ (commandWord_fields w ((eq_of_and_allOnes hrsv hrsvMask).trans hrsvZero))
  rw [eq_of_and_allOnes hop hopMask]
  cases m with
  | setw =>
    rw [operationOfRow, encode_setw_fields]
    rfl
  | getw =>
    rw [operationOfRow, encode_getw_fields, eq_of_and_allOnes hval rfl]
    rfl
  | init =>
    rw [eq_of_and_allOnes hch rfl, eq_of_and_allOnes hval rfl]
    rfl
  | tickpwm =>
    rw [eq_of_and_allOnes hch rfl, eq_of_and_allOnes hval rfl]
    rfl
  | tickppm =>
    rw [eq_of_and_allOnes hch rfl]
    rfl

theorem mnemonic_operationOfRow (m : Mnemonic) (w : Word) : (operationOfRow m w).mnemonic = m := by
  cases m with
  | _ => rfl

/-- A word matches a row exactly when it decodes to an operation of the row's mnemonic. -/
theorem matches_iff (w : Word) (m : Mnemonic) :
    (opcodeRow m).matches w ↔ ∃ i, decodeWord w = some i ∧ i.mnemonic = m := by
  constructor
  · intro h
    exact ⟨operationOfRow m w, (decodeWord_eq_some_iff w _).mpr ⟨wf_operationOfRow m w, encode_operationOfRow m w h⟩,
      mnemonic_operationOfRow m w⟩
  · rintro ⟨i, hdecode, rfl⟩
    obtain ⟨-, rfl⟩ := (decodeWord_eq_some_iff w i).mp hdecode
    exact matches_encode i

/-- Settles O3: a matching row is the mnemonic of the one operation the word decodes to, and that operation's port is
the word's. -/
theorem decoderFollowsOpcodeMap : Obligations.DecoderFollowsOpcodeMap := by
  intro w m
  refine ⟨matches_iff w m, fun h => ?_⟩
  obtain ⟨i, hdecode, rfl⟩ := (matches_iff w m).mp h
  refine ⟨?_, fun m' h' => ?_⟩
  · obtain ⟨-, rfl⟩ := (decodeWord_eq_some_iff w i).mp hdecode
    rw [portOfWord_encode, opcodeRow_port]
  · obtain ⟨j, hj, rfl⟩ := (matches_iff w m').mp h'
    rw [hdecode] at hj
    cases hj
    rfl

end Sys2Proof

namespace Sys2Proof.Machine

/-! ## The disassembly and the host port (R57, R68) -/

theorem disassemble_of_decodeWord_some (w : Word) (i : Instr) (h : decodeWord w = some i) : disassemble w = .op i := by
  simp only [disassemble, h]

theorem disassemble_of_decodeWord_none (w : Word) (h : decodeWord w = none) : disassemble w = .word w.toNat := by
  simp only [disassemble, h]

theorem disassemble_eq_op_iff (w : Word) (i : Instr) : disassemble w = .op i ↔ decodeWord w = some i := by
  cases h : decodeWord w with
  | none => simp [disassemble_of_decodeWord_none w h]
  | some j => simp [disassemble_of_decodeWord_some w j h]

/-- The host port carries SETW, GETW and INIT (R57). -/
theorem portOf_eq_host_iff (i : Instr) :
    portOf i = .host ↔ i.mnemonic = .setw ∨ i.mnemonic = .getw ∨ i.mnemonic = .init := by
  cases i with
  | _ => simp [portOf, Instr.mnemonic]

/-- Settles O4: the host port's decoder and the opcode map answer the same operation, if it arrives on the host port. -/
theorem hostWordLegality : Obligations.HostWordLegality := by
  intro w i
  rw [disassemble_eq_op_iff, decodeWord_eq_some_iff, ← portOf_eq_host_iff, and_assoc]
  exact decodeOn_eq_op_iff .host w i

/-! ## Strobe words (R63) -/

/-- A strobe's word that its decoder rejects makes a malformed strobe event. -/
theorem decodeEvent_strobe_rejected (p : Port) (w : Word) (why : DecodeReject) (hp : p ≠ .host)
    (h : decodeOn p w = .rejected why) : decodeEvent (Event.onPort p w) = .malformedStrobe why := by
  cases p with
  | host => exact absurd rfl hp
  | pwm => simp [Event.onPort, decodeEvent, show decodePwm w = .rejected why from h]
  | ppm => simp [Event.onPort, decodeEvent, show decodePpm w = .rejected why from h]

/-- A word that is no operation of its strobe makes an event that does not exist. -/
theorem isReal_strobe_eq_false (p : Port) (w : Word) (hp : p ≠ .host)
    (h : ∀ i, portOf i = p → encode i ≠ w) : isReal (Event.onPort p w) = false := by
  cases hd : decodeOn p w with
  | op i =>
    obtain ⟨-, henc, hport⟩ := (decodeOn_eq_op_iff p w i).mp hd
    exact absurd henc (h i hport)
  | rejected why => simp [isReal, decodeEvent_strobe_rejected p w why hp hd]

/-- The PPM strobe's word for a sample is the encoding of TICKPPM. -/
theorem encode_tickppm (smp : Mask) : encode (.tickppm smp) = 0x50000000#32 ||| smp.setWidth 32 := by
  apply BitVec.eq_of_getLsbD_eq
  intro k hk
  have hbase : 0x50000000#32 = commandWord 0x5#4 0#8 0#16 := rfl
  rw [hbase, encode, BitVec.getLsbD_or, getLsbD_commandWord, getLsbD_commandWord, BitVec.getLsbD_setWidth]
  by_cases hlow : k < 16
  · simp [hlow, hk]
  · simp [hlow, BitVec.getLsbD_of_ge smp k (Nat.le_of_not_lt hlow)]

/-- Settles O10: a strobe's word runs the operation it encodes; a word that encodes none of the strobe's is refused. -/
theorem strobeWords : Obligations.StrobeWords := by
  intro s w rest hc
  refine ⟨fun hs => ?_, fun hs => ⟨?_, fun hno => ?_⟩⟩
  · by_cases hw : w = 0x40000000#32
    · subst hw
      exact step_eq_exec s _ rest .tickpwm hc hs (decodeEvent_eventOf .tickpwm rfl)
    · rw [if_neg hw]
      refine step_malformedStrobe s hc _ rest hs (isReal_strobe_eq_false .pwm w (by decide) fun i hi henc => ?_)
      cases i with
      | tickpwm => exact hw henc.symm
      | _ => nomatch hi
  · rintro smp rfl
    rw [← encode_tickppm] at hs
    exact step_eq_exec s _ rest (.tickppm smp) hc hs (decodeEvent_eventOf (.tickppm smp) rfl)
  · refine step_malformedStrobe s hc _ rest hs (isReal_strobe_eq_false .ppm w (by decide) fun i hi henc => ?_)
    cases i with
    | tickppm smp => exact hno smp (by rw [← henc, encode_tickppm])
    | _ => nomatch hi

/-! ## Response words (R58, R59) -/

/-- The fields of a response word: STATUS, twelve zero bits, DATA. -/
theorem responseWord_fields (st : Status) (data : U16) :
    (responseWord st data).extractLsb' 28 4 = st.code ∧ (responseWord st data).extractLsb' 16 12 = 0#12 ∧
      (responseWord st data).extractLsb' 0 16 = data := by
  have hhigh : ∀ start len, (responseWord st data).extractLsb' (16 + start) len =
      (st.code ++ 0#12).extractLsb' start len := fun start len => by
    rw [responseWord, BitVec.extractLsb'_append_eq_of_le (Nat.le_add_right 16 start), Nat.add_sub_cancel_left]
  exact ⟨(hhigh 12 4).trans BitVec.extractLsb'_append_eq_left, (hhigh 0 12).trans BitVec.extractLsb'_append_eq_right,
    BitVec.extractLsb'_append_eq_right⟩

/-- A response: a word of some status and data, with data only where the status is OK. -/
def IsResponse (r : Word) : Prop := ∃ st data, r = responseWord st data ∧ (st ≠ .ok → data = 0#16)

/-- A response as R58 and R59 say it of the bits. -/
theorem IsResponse.form {r : Word} (h : IsResponse r) :
    r.extractLsb' 16 12 = 0#12 ∧
      (r.extractLsb' 28 4 = 0#4 ∨ r.extractLsb' 28 4 = 1#4 ∨ r.extractLsb' 28 4 = 2#4) ∧
      (r.extractLsb' 28 4 ≠ 0#4 → r.extractLsb' 0 16 = 0#16) := by
  obtain ⟨st, data, rfl, hdata⟩ := h
  obtain ⟨hstatus, hzero, hlow⟩ := responseWord_fields st data
  rw [hstatus, hzero, hlow]
  refine ⟨rfl, ?_, fun hne => hdata (by rintro rfl; exact hne rfl)⟩
  cases st with
  | ok => exact .inl rfl
  | invalidChannel => exact .inr (.inl rfl)
  | illegalCommand => exact .inr (.inr rfl)

/-- Every operation of the host port answers. -/
theorem responseAfter_host (c : Config) (i : Instr) (b : Block) (hi : portOf i = .host) :
    ∃ r, responseAfter c i b = some r ∧ IsResponse r := by
  cases i with
  | setw ch val => exact ⟨_, rfl, _, _, rfl, fun _ => rfl⟩
  | getw ch =>
    by_cases hch : ch < c.nPpm
    · exact ⟨_, by rw [responseAfter, if_pos hch], _, _, rfl, fun hne => absurd rfl hne⟩
    · exact ⟨_, by rw [responseAfter, if_neg hch], _, _, rfl, fun _ => rfl⟩
  | init => exact ⟨_, rfl, _, _, rfl, fun _ => rfl⟩
  | _ => nomatch hi

theorem responseAfter_strobe (c : Config) (i : Instr) (b : Block) (hi : portOf i ≠ .host) :
    responseAfter c i b = none := by
  cases i with
  | tickpwm => rfl
  | tickppm smp => rfl
  | _ => exact absurd rfl hi

/-- The next state of a step that runs an operation. -/
theorem step_eq_stateAfter (s t : State) (e : Event) (rest : List Event) (i : Instr) (hs : s.schedule = e :: rest)
    (hd : decodeEvent e = .op i) (h : step s = .next t) : t = stateAfter i s := by
  obtain ⟨hc, -⟩ := step_cases s t h
  rw [step_eq_exec s e rest i hc hs hd, exec_eq_stateAfter] at h
  cases h
  rfl

/-- A host word answers, by its operation or as an illegal command. -/
theorem step_host_response (s t : State) (w : Word) (rest : List Event) (hs : s.schedule = .host w :: rest)
    (h : step s = .next t) : ∃ r, t.response = some r ∧ IsResponse r := by
  cases hd : decodeHost w with
  | op i =>
    obtain ⟨-, -, hport⟩ := (decodeOn_eq_op_iff .host w i).mp hd
    rw [step_eq_stateAfter s t _ rest i hs (decodeEvent_onPort .host w i hd) h, stateAfter_response]
    exact responseAfter_host s.cfg i s.block hport
  | rejected why =>
    obtain ⟨hc, -⟩ := step_cases s t h
    rw [step_cons s hc _ rest hs, decodeEvent, hd] at h
    cases h
    exact ⟨_, rfl, .illegalCommand, 0#16, rfl, fun _ => rfl⟩

/-- A strobe's word does not answer. -/
theorem step_strobe_response (s t : State) (p : Port) (w : Word) (rest : List Event) (hp : p ≠ .host)
    (hs : s.schedule = Event.onPort p w :: rest) (h : step s = .next t) : t.response = none := by
  cases hd : decodeOn p w with
  | op i =>
    obtain ⟨-, -, rfl⟩ := (decodeOn_eq_op_iff p w i).mp hd
    rw [step_eq_stateAfter s t _ rest i hs (decodeEvent_onPort _ w i hd) h, stateAfter_response]
    exact responseAfter_strobe s.cfg i s.block hp
  | rejected why =>
    obtain ⟨hc, -⟩ := step_cases s t h
    rw [step_cons s hc _ rest hs, decodeEvent_strobe_rejected p w why hp hd] at h
    cases h

/-- Settles O17: a host word answers, by its operation or as an illegal command; a strobe and Reset do not. -/
theorem responseWordForm : Obligations.ResponseWordForm := by
  intro s e rest t hs h
  constructor
  · rintro ⟨w, rfl⟩
    obtain ⟨r, hr, hform⟩ := step_host_response s t w rest hs h
    exact ⟨r, hr, hform.form⟩
  · intro hne
    cases e with
    | host w => exact absurd rfl (hne w)
    | pwmStrobe w => exact step_strobe_response s t .pwm w rest (by decide) hs h
    | ppmStrobe w => exact step_strobe_response s t .ppm w rest (by decide) hs h
    | reset =>
      obtain ⟨hc, -⟩ := step_cases s t h
      rw [step_cons s hc _ rest hs] at h
      cases h
      rfl

/-! ## The sample word (R62, R91) -/

/-- A PPM tick reads no sample bit at or above N_PPM: the arrays have N_PPM elements. -/
theorem ppmTick_congr (c : Config) (x y : Mask) (b : Block) (hacc : b.acc.length = c.nPpm)
    (hdw : b.dw.length = c.nPpm) (h : ∀ k, k < c.nPpm → sampleBit x k = sampleBit y k) :
    ppmTick c x b = ppmTick c y b := by
  rw [ppmTick, ppmTick, Block.mk.injEq]
  refine ⟨rfl, rfl, rfl, rfl, rfl, List.mapIdx_eq_mapIdx_iff.mpr fun k hk => ?_,
    List.mapIdx_eq_mapIdx_iff.mpr fun k hk => ?_⟩
  · rw [h k (hacc ▸ hk)]
  · rw [h k (hdw ▸ hk)]

/-- Settles O32: armed, the two ticks leave the same block; unarmed, neither reads its sample. -/
theorem highSampleBitsIgnored : Obligations.HighSampleBitsIgnored := by
  rintro s x y ⟨-, -, ⟨-, -, hacc, hdw⟩, -⟩ h
  cases harmed : s.block.ppmArmed with
  | false => rw [exec_tickppm_unarmed x s harmed, exec_tickppm_unarmed y s harmed]
  | true =>
    rw [exec_tickppm_armed x s harmed, exec_tickppm_armed y s harmed, ppmTick_congr s.cfg x y s.block hacc hdw h]

end Sys2Proof.Machine

namespace Sys2Proof.Machine

/-! ## Tokens of a line (R65) -/

/-- A character that continues a token: none that ends a token or starts a comment. -/
def isTokenChar (ch : Char) : Bool := ch != ';' && ch != ',' && ch != ' ' && ch != '\t' && ch != ':'

/-- Characters that are one token: at least one, and each continues it. -/
def isTokenText (cs : List Char) : Bool := cs != [] && cs.all isTokenChar

theorem tokens_tokenChar (ch : Char) (cur rest : List Char) (h : isTokenChar ch = true) :
    tokens cur (ch :: rest) = tokens (ch :: cur) rest := by
  obtain ⟨⟨⟨⟨hsemi, hcomma⟩, hspace⟩, htab⟩, hcolon⟩ :
      (((ch ≠ ';' ∧ ch ≠ ',') ∧ ch ≠ ' ') ∧ ch ≠ '\t') ∧ ch ≠ ':' := by
    simpa [isTokenChar] using h
  simp [tokens, hsemi, hcomma, hspace, htab, hcolon]

theorem tokens_cons_space (cur rest : List Char) :
    tokens cur (' ' :: rest) = flushToken cur ++ tokens [] rest := rfl

theorem tokens_cons_comma (cur rest : List Char) :
    tokens cur (',' :: rest) = flushToken cur ++ .comma :: tokens [] rest := rfl

/-- The characters of a token are read into it. -/
theorem tokens_append (cs cur rest : List Char) (h : ∀ ch ∈ cs, isTokenChar ch = true) :
    tokens cur (cs ++ rest) = tokens (cs.reverse ++ cur) rest := by
  induction cs generalizing cur with
  | nil => rfl
  | cons ch cs ih =>
    rw [List.cons_append, tokens_tokenChar ch cur _ (h ch List.mem_cons_self),
      ih (ch :: cur) fun x hx => h x (List.mem_cons_of_mem ch hx), List.reverse_cons, List.append_assoc]
    rfl

theorem flushToken_eq (cur : List Char) (h : cur ≠ []) : flushToken cur = [.word cur.reverse] := by
  cases cur with
  | nil => exact absurd rfl h
  | cons ch rest => rfl

/-- A token's text is read up to what follows it, and flushes to the token. -/
theorem tokens_tokenText (cs rest : List Char) (h : isTokenText cs = true) :
    tokens [] (cs ++ rest) = tokens cs.reverse rest ∧ flushToken cs.reverse = [.word cs] := by
  obtain ⟨hne, hall⟩ : cs ≠ [] ∧ ∀ ch ∈ cs, isTokenChar ch = true := by simpa [isTokenText] using h
  constructor
  · rw [tokens_append cs [] rest hall, List.append_nil]
  · rw [flushToken_eq _ (by simpa using hne), List.reverse_reverse]

theorem tokens_last (cs : List Char) (h : isTokenText cs = true) : tokens [] cs = [.word cs] := by
  obtain ⟨hread, hflush⟩ := tokens_tokenText cs [] h
  rw [← List.append_nil cs, hread, tokens, hflush, List.append_nil]

theorem tokens_space (cs rest : List Char) (h : isTokenText cs = true) :
    tokens [] (cs ++ ' ' :: rest) = .word cs :: tokens [] rest := by
  obtain ⟨hread, hflush⟩ := tokens_tokenText cs (' ' :: rest) h
  rw [hread, tokens_cons_space, hflush, List.singleton_append]

theorem tokens_comma_space (cs rest : List Char) (h : isTokenText cs = true) :
    tokens [] (cs ++ ',' :: ' ' :: rest) = .word cs :: .comma :: tokens [] rest := by
  obtain ⟨hread, hflush⟩ := tokens_tokenText cs (',' :: ' ' :: rest) h
  rw [hread, tokens_cons_comma, tokens_cons_space, hflush, List.singleton_append]
  rfl

/-! ## Numbers read back as they are printed (R65, R68) -/

theorem isTokenChar_of_isDigit (ch : Char) (h : ch.isDigit = true) : isTokenChar ch = true := by
  have hne : ∀ x : Char, x.isDigit = false → ch ≠ x := fun x hx heq => by rw [heq, hx] at h; cases h
  simp only [isTokenChar, Bool.and_eq_true, bne_iff_ne]
  exact ⟨⟨⟨⟨hne _ rfl, hne _ rfl⟩, hne _ rfl⟩, hne _ rfl⟩, hne _ rfl⟩

theorem toDigits_isDigit (n : Nat) : ∀ ch ∈ Nat.toDigits 10 n, ch.isDigit = true := fun _ hch =>
  Nat.isDigit_of_mem_toDigits (by decide) le_rfl hch

theorem isTokenText_toDigits (n : Nat) : isTokenText (Nat.toDigits 10 n) = true := by
  have hall : ∀ ch ∈ Nat.toDigits 10 n, isTokenChar ch = true := fun ch hch =>
    isTokenChar_of_isDigit ch (toDigits_isDigit n ch hch)
  simpa [isTokenText, Nat.toDigits_ne_nil] using hall

theorem decimal_of_nonneg (n : Nat) : decimal n = Nat.toDigits 10 n := by
  simp [decimal]

theorem decimal_of_neg (v : Int) (h : v < 0) : decimal v = '-' :: Nat.toDigits 10 v.natAbs := if_pos h

theorem isTokenText_decimal (v : Int) : isTokenText (decimal v) = true := by
  obtain hneg | hnonneg := lt_or_ge v 0
  · rw [decimal_of_neg v hneg]
    simpa [isTokenText, isTokenChar, Nat.toDigits_ne_nil] using isTokenText_toDigits v.natAbs
  · obtain ⟨n, rfl⟩ := Int.eq_ofNat_of_zero_le hnonneg
    rw [decimal_of_nonneg]
    exact isTokenText_toDigits n

/-- A decimal digit's value. -/
theorem digitValue_of_isDigit (ch : Char) (h : ch.isDigit = true) :
    digitValue ch = some (ch.toNat - 48) ∧ ch.toNat - 48 < 10 := by
  have hrange : 48 ≤ ch.toNat ∧ ch.toNat ≤ 57 := by
    simpa [Char.isDigit, UInt32.le_iff_toNat_le] using h
  exact ⟨if_pos hrange, by omega⟩

/-- Decimal digits are read as the library reads them. -/
theorem readDigits_ten (cs : List Char) (acc : Nat) (h : ∀ ch ∈ cs, ch.isDigit = true) :
    readDigits 10 acc cs = some (Nat.ofDigitChars 10 cs acc) := by
  induction cs generalizing acc with
  | nil => rfl
  | cons ch cs ih =>
    obtain ⟨hvalue, hlt⟩ := digitValue_of_isDigit ch (h ch List.mem_cons_self)
    simp only [readDigits, hvalue, if_pos hlt]
    rw [ih _ fun x hx => h x (List.mem_cons_of_mem ch hx), Nat.ofDigitChars_cons, Nat.mul_comm]
    rfl

theorem readNumber_toDigits (n : Nat) : readNumber 10 (Nat.toDigits 10 n) = some n := by
  rw [readNumber, if_neg Nat.toDigits_ne_nil, readDigits_ten _ 0 (toDigits_isDigit n), Nat.ofDigitChars_ten_toDigits]

/-- Digits have no sign and no `0x`. -/
theorem readInteger_of_isDigit (cs : List Char) (n : Nat) (h : ∀ ch ∈ cs, ch.isDigit = true)
    (hn : readNumber 10 cs = some n) : readInteger cs = some (n : Int) := by
  unfold readInteger
  split
  · next ds => exact absurd (h '-' List.mem_cons_self) (by decide)
  · next hs => exact absurd (h 'x' (List.mem_cons_of_mem _ List.mem_cons_self)) (by decide)
  · rw [hn]
    rfl

theorem readInteger_decimal (v : Int) : readInteger (decimal v) = some v := by
  obtain hneg | hnonneg := lt_or_ge v 0
  · rw [decimal_of_neg v hneg, readInteger, readNumber_toDigits]
    exact congrArg some (show -(v.natAbs : Int) = v by omega)
  · obtain ⟨n, rfl⟩ := Int.eq_ofNat_of_zero_le hnonneg
    rw [decimal_of_nonneg]
    exact readInteger_of_isDigit _ n (toDigits_isDigit n) (readNumber_toDigits n)

theorem readNatural_of_readInteger (cs : List Char) (n : Nat) (h : readInteger cs = some (n : Int)) :
    readNatural cs = some n := by
  simp [readNatural, h]

theorem readNatural_decimal (n : Nat) : readNatural (decimal n) = some n :=
  readNatural_of_readInteger _ n (readInteger_decimal n)

/-- A hexadecimal digit is read back and continues a token. -/
theorem hexDigit_spec (d : Nat) (h : d < 16) : digitValue (hexDigit d) = some d ∧ isTokenChar (hexDigit d) = true := by
  revert d
  decide

theorem readDigits_append (base acc : Nat) (cs ds : List Char) :
    readDigits base acc (cs ++ ds) = (readDigits base acc cs).bind fun a => readDigits base a ds := by
  induction cs generalizing acc with
  | nil => rfl
  | cons ch cs ih =>
    simp only [List.cons_append, readDigits]
    cases digitValue ch with
    | none => rfl
    | some d =>
      by_cases hd : d < base
      · simp only [if_pos hd, ih]
      · simp only [if_neg hd, Option.bind_none]

/-- `k` hexadecimal digits are read back as the number they are printed from. -/
theorem readDigits_hexDigits (k n : Nat) (h : n < 16 ^ k) : readDigits 16 0 (hexDigits k n) = some n := by
  induction k generalizing n with
  | zero =>
    obtain rfl : n = 0 := by simpa using h
    rfl
  | succ k ih =>
    have hdigit : n % 16 < 16 := Nat.mod_lt n (by decide)
    have hhigh : n / 16 < 16 ^ k := by rw [pow_succ] at h; omega
    obtain ⟨hvalue, -⟩ := hexDigit_spec (n % 16) hdigit
    rw [hexDigits, readDigits_append, ih (n / 16) hhigh, Option.bind_some]
    simp only [readDigits, hvalue, if_pos hdigit]
    congr 1
    omega

theorem hexDigits_isTokenChar (k n : Nat) : ∀ ch ∈ hexDigits k n, isTokenChar ch = true := by
  induction k generalizing n with
  | zero => simp [hexDigits]
  | succ k ih =>
    intro ch hch
    rw [hexDigits, List.mem_append, List.mem_singleton] at hch
    obtain hch | rfl := hch
    · exact ih (n / 16) ch hch
    · exact (hexDigit_spec _ (Nat.mod_lt n (by decide))).2

theorem isTokenText_hex (k n : Nat) : isTokenText ('0' :: 'x' :: hexDigits k n) = true := by
  simpa [isTokenText, isTokenChar] using hexDigits_isTokenChar k n

theorem readNatural_hex (k n : Nat) (hk : k ≠ 0) (h : n < 16 ^ k) :
    readNatural ('0' :: 'x' :: hexDigits k n) = some n := by
  have hne : hexDigits k n ≠ [] := by
    cases k with
    | zero => exact absurd rfl hk
    | succ k => simp [hexDigits]
  apply readNatural_of_readInteger
  rw [readInteger, readNumber, if_neg hne, readDigits_hexDigits k n h]
  rfl

theorem readSample_hex (smp : Mask) : readSample ('0' :: 'x' :: hexDigits 4 smp.toNat) = some smp := by
  have hlt : smp.toNat < 65536 := smp.isLt
  simp [readSample, readNatural_hex 4 smp.toNat (by decide) hlt, hlt]

/-! ## A printed source is read back (R65, R66, R68) -/

/-- The first word of a source's line. -/
def keywordOf (src : Source) : List Char :=
  match src with
  | .op (.setw _ _) => kwSetw
  | .op (.getw _) => kwGetw
  | .op .init => kwInit
  | .op .tickpwm => kwTickpwm
  | .op (.tickppm _) => kwTickppm
  | .word _ => kwWord

/-- The tokens after it. -/
def operandTokens (src : Source) : List Token :=
  match src with
  | .op (.setw ch val) => [.word (decimal ch), .comma, .word (decimal val)]
  | .op (.getw ch) => [.word (decimal ch)]
  | .op .init => []
  | .op .tickpwm => []
  | .op (.tickppm s) => [.word ('0' :: 'x' :: hexDigits 4 s.toNat)]
  | .word w => [.word ('0' :: 'x' :: hexDigits 8 w)]

/-- A printed source is its keyword and its operands. -/
theorem tokens_printSource (src : Source) :
    tokens [] (printSource src) = .word (keywordOf src) :: operandTokens src := by
  cases src with
  | word w =>
    rw [printSource, tokens_space kwWord _ (by decide), tokens_last _ (isTokenText_hex 8 w)]
    rfl
  | op i =>
    cases i with
    | setw ch val =>
      rw [printSource, List.append_assoc, List.cons_append, tokens_space kwSetw _ (by decide),
        tokens_comma_space _ _ (isTokenText_decimal ch), tokens_last _ (isTokenText_decimal val)]
      rfl
    | getw ch =>
      rw [printSource, tokens_space kwGetw _ (by decide), tokens_last _ (isTokenText_decimal ch)]
      rfl
    | init => exact tokens_last kwInit (by decide)
    | tickpwm => exact tokens_last kwTickpwm (by decide)
    | tickppm s =>
      rw [printSource, tokens_space kwTickppm _ (by decide), tokens_last _ (isTokenText_hex 4 s.toNat)]
      rfl

/-- The printed text of a word's source is parsed back to it. -/
theorem parseSource_printed (src : Source) (w : Word) (hw : src.wordOf = some w) :
    parseSource (.word (keywordOf src) :: operandTokens src) = some src := by
  cases src with
  | word v =>
    have hlt : v < 16 ^ 8 := by
      by_contra hge
      simp [Source.wordOf, show ¬ v < 4294967296 from hge] at hw
    simp [keywordOf, operandTokens, parseSource, kwWord, kwGetw, kwTickppm, readNatural_hex 8 v (by decide) hlt]
  | op i =>
    cases i with
    | setw ch val =>
      simp [keywordOf, operandTokens, parseSource, readNatural_decimal, readInteger_decimal]
    | getw ch => simp [keywordOf, operandTokens, parseSource, readNatural_decimal]
    | init => rfl
    | tickpwm => rfl
    | tickppm s => simp [keywordOf, operandTokens, parseSource, kwTickppm, kwGetw, readSample_hex]

/-- No keyword of an operation names a port or is REP. -/
theorem keywordOf_plain (src : Source) : portPrefix (keywordOf src) = none ∧ keywordOf src ≠ kwRep := by
  cases src with
  | word w => exact ⟨rfl, by simp [keywordOf, kwWord, kwRep]⟩
  | op i =>
    cases i with
    | _ => exact ⟨rfl, by simp [keywordOf, kwSetw, kwGetw, kwInit, kwTickpwm, kwTickppm, kwRep]⟩

theorem parseRepeat_op (m : List Char) (rest : List Token) (h : m ≠ kwRep) :
    parseRepeat (.word m :: rest) = (parseSource (.word m :: rest)).map fun src => (1, src) := by
  unfold parseRepeat
  split
  · next heq =>
    cases heq
    rw [if_neg h]
  · rfl

theorem parseRepeat_rep (n : Nat) (ts : List Token) (src : Source) (h : parseSource ts = some src) :
    parseRepeat (.word kwRep :: .word (decimal n) :: .comma :: ts) = some (n, src) := by
  simp [parseRepeat, readNatural_decimal, h]

theorem parseTokens_unprefixed (m : List Char) (rest : List Token) (h : portPrefix m = none) :
    parseTokens (.word m :: rest) =
      (parseRepeat (.word m :: rest)).map fun r => { onPort := none, count := r.1, source := r.2 } := by
  simp only [parseTokens, h]

/-- The copies that a line with no port named stands for. -/
theorem events_unprefixed (n : Nat) (hn : n ≠ 0) (src : Source) (w : Word) (hw : src.wordOf = some w) :
    ListingLine.events { onPort := none, count := n, source := src } =
      some (List.replicate n (Event.onPort src.defaultPort w)) := by
  simp [ListingLine.events, hn, hw]

/-- A text whose tokens parse to a line assembles to the line's events. -/
theorem assembleLine_of_parseTokens (text : List Char) (ts : List Token) (l : ListingLine) (ht : tokens [] text = ts)
    (hl : parseTokens ts = some l) : assembleLine text = l.events := by
  have hne : ts ≠ [] := by
    rintro rfl
    cases hl
  simp only [assembleLine, parseLine, ht, if_neg hne, hl]

/-- A printed source assembles to its word on its port. -/
theorem assembleLine_printSource (src : Source) (w : Word) (hw : src.wordOf = some w) :
    assembleLine (printSource src) = some [Event.onPort src.defaultPort w] := by
  obtain ⟨hnoPort, hrep⟩ := keywordOf_plain src
  have hparse : parseTokens (.word (keywordOf src) :: operandTokens src) =
      some { onPort := none, count := 1, source := src } := by
    rw [parseTokens_unprefixed _ _ hnoPort, parseRepeat_op _ _ hrep, parseSource_printed src w hw]
    rfl
  rw [assembleLine_of_parseTokens _ _ _ (tokens_printSource src) hparse, events_unprefixed 1 (by decide) src w hw]
  rfl

/-- Under REP n a printed source assembles to n copies of that event. -/
theorem assembleLine_rep_printSource (n : Nat) (hn : n ≠ 0) (src : Source) (w : Word) (hw : src.wordOf = some w) :
    assembleLine (kwRep ++ ' ' :: decimal n ++ ',' :: ' ' :: printSource src) =
      some (List.replicate n (Event.onPort src.defaultPort w)) := by
  have htokens : tokens [] (kwRep ++ ' ' :: decimal n ++ ',' :: ' ' :: printSource src) =
      .word kwRep :: .word (decimal n) :: .comma :: .word (keywordOf src) :: operandTokens src := by
    rw [List.append_assoc, List.cons_append, tokens_space kwRep _ (by decide),
      tokens_comma_space _ _ (isTokenText_decimal n), tokens_printSource]
  have hparse : parseTokens (.word kwRep :: .word (decimal n) :: .comma :: .word (keywordOf src) :: operandTokens src) =
      some { onPort := none, count := n, source := src } := by
    rw [parseTokens_unprefixed _ _ (by decide), parseRepeat_rep n _ src (parseSource_printed src w hw)]
    rfl
  rw [assembleLine_of_parseTokens _ _ _ htokens hparse, events_unprefixed n hn src w hw]

/-- The disassembly of a word spells that word. -/
theorem wordOf_disassemble (w : Word) : (disassemble w).wordOf = some w := by
  cases hd : decodeWord w with
  | some i =>
    rw [disassemble_of_decodeWord_some w i hd]
    exact (assemble_eq_some_iff i w).mpr hd
  | none =>
    rw [disassemble_of_decodeWord_none w hd, Source.wordOf, if_pos w.isLt, BitVec.ofNat_toNat, BitVec.setWidth_eq]

/-- Settles O6: the disassembly spells the word, its line and the line under REP are read back, and its port is that of
the operation, or the host port. -/
theorem listingRoundTrip : Obligations.ListingRoundTrip := by
  intro w n hn e
  have hport : Event.onPort (disassemble w).defaultPort w = e := by
    cases hd : decodeWord w with
    | some i =>
      obtain ⟨-, hw⟩ := (decodeWord_eq_some_iff w i).mp hd
      simp only [e, hd, disassemble_of_decodeWord_some w i hd, Source.defaultPort, eventOf, hw]
    | none => simp only [e, hd, disassemble_of_decodeWord_none w hd, Source.defaultPort, Event.onPort]
  rw [← hport]
  exact ⟨assembleLine_printSource _ w (wordOf_disassemble w),
    assembleLine_rep_printSource n (Nat.ne_of_gt hn) _ w (wordOf_disassemble w)⟩

end Sys2Proof.Machine
end

section
/-! PROOFS. O18, O19, O20, O24, O25, O26, O28, O29, O44, O45, O46, O48, O49 and O50, of the family 40_pwm.md. First
SETW and one PWM tick, channel by channel, and its drive; then the drives of a run, the place of a channel in its frame
(R82) over any events, and the first frame after Reset (R87). -/

namespace Sys2Proof.Machine

/-! ## SETW and the width clamp (R71, R72, R73) -/

theorem clamp_of_lt (v lo hi : Int) (h : v < lo) : clamp v lo hi = lo := if_pos h

theorem clamp_of_gt (v lo hi : Int) (hlo : lo ≤ v) (h : hi < v) : clamp v lo hi = hi := by
  rw [clamp, if_neg (Int.not_lt.mpr hlo), if_pos h]

theorem clamp_of_mem (v lo hi : Int) (hlo : lo ≤ v) (hhi : v ≤ hi) : clamp v lo hi = v := by
  rw [clamp, if_neg (Int.not_lt.mpr hlo), if_neg (Int.not_lt.mpr hhi)]

/-- Settles O19: the three branches of the clamp. -/
theorem widthClamp : Obligations.WidthClamp := by
  intro c v hc
  have hval := clampw_toNat c hc v
  obtain ⟨-, -, ⟨hf, -⟩, -⟩ := hc
  refine ⟨fun hneg => ?_, fun hbig => ?_, fun hlo hhi => ?_⟩
  · rw [clamp_of_lt v _ _ hneg] at hval
    omega
  · rw [clamp_of_gt v _ _ (by omega) hbig] at hval
    omega
  · rwa [clamp_of_mem v _ _ hlo hhi] at hval

/-- Settles O18: a valid SETW writes one element of CW, with the clamp written as a minimum and a maximum. -/
theorem setwStoresClampedWidth : Obligations.SetwStoresClampedWidth := by
  rintro s ch val ⟨hc, -, ⟨hlen, -⟩, -⟩ hch
  refine ⟨_, exec_setw_valid ch val s hch, ⟨clampw s.cfg val, ?_, ?_⟩, ?_, fun k hne => ?_, rfl⟩
  · exact List.getElem?_set_self (hlen ▸ hch)
  · rw [clampw_toNat_eq s.cfg hc val]
    obtain ⟨-, -, ⟨hf, -⟩, -⟩ := hc
    omega
  · exact List.length_set
  · exact List.getElem?_set_ne hne.symm

/-- Settles O20: both commands end in `raise`. -/
theorem invalidChannelAnswer : Obligations.InvalidChannelAnswer := fun s ch val =>
  ⟨fun h => exec_setw_invalid ch val s (Nat.not_lt.mpr h), fun h => exec_getw_invalid ch s (Nat.not_lt.mpr h)⟩

/-! ## One PWM tick, channel by channel (R77, R78, R88) -/

/-- CP[k] after a non-boundary tick. -/
theorem pwmCount_cp_get (c : Config) (b : Block) (k : Nat) :
    (pwmCount c b).cp[k]? = b.cp[k]?.map nextPeriod := by
  rw [pwmCount_cp, List.getElem?_map]

/-- The level that a non-boundary tick drives on line k. -/
theorem pwmCount_outBit (c : Config) (b : Block) (k : Nat) (hk : k < 16) :
    (pwmCount c b).outBit k = (b.cp[k]?.map (channelHigh c)).getD false := by
  rw [Block.outBit, pwmCount_out, getLsbD_maskOf _ k hk, List.getD_eq_getElem?_getD, List.getElem?_map]

/-- A boundary tick drives every line low. -/
theorem pwmBoundary_outBit (c : Config) (b : Block) (k : Nat) : (pwmBoundary c b).outBit k = false :=
  BitVec.getLsbD_zero

/-- Settles O24: an unarmed PWM tick leaves the block and drives nothing. -/
theorem unarmedPwmTickHasNoEffect : Obligations.UnarmedPwmTickHasNoEffect := fun s h =>
  exec_tickpwm_unarmed s h

/-- Settles O25: an armed tick with FC = 0 is `pwmBoundary`; the complement of its levels is every line. -/
theorem boundaryTick : Obligations.BoundaryTick := by
  intro s hc harmed hfc
  refine ⟨_, exec_tickpwm_armed s harmed, ?_⟩
  rw [pwmTick_boundary s.cfg s.block hfc]
  have hdrive : driveMasks s.cfg 0#16 = { setMask := 0#16, clearMask := ones s.cfg.nPwm } := by
    rw [driveMasks, BitVec.not_zero, BitVec.allOnes_and]
  exact ⟨frameReload_toNat s.cfg hc, by rw [← hdrive]; rfl⟩

/-- Settles O26: an armed tick with FC ≠ 0 is `pwmCount`, which drives and counts each channel by its period. -/
theorem countTick : Obligations.CountTick := by
  rintro s ⟨⟨⟨-, hn⟩, -⟩, -, ⟨-, hcpl, -⟩, -⟩ hlit harmed hfc
  refine ⟨_, exec_tickpwm_armed s harmed, ?_⟩
  rw [pwmTick_count s.cfg s.block hfc]
  refine ⟨toNat_pred _ hfc, List.length_map _, fun k p hp => ⟨⟨nextPeriod p, ?_, nextPeriod_toNat p⟩, ?_⟩,
    fun k hk => ?_, rfl⟩
  · rw [driveOut_block, pwmCount_cp_get, hp, Option.map_some]
  · have hk : k < s.block.cp.length := (List.getElem?_eq_some_iff.mp hp).1
    rw [driveOut_block, pwmCount_outBit _ _ k (by omega), hp, Option.map_some, Option.getD_some,
      channelHigh_normative s.cfg hlit]
  · exact getLsbD_maskOf_ge _ k (by rwa [List.length_map, hcpl])

/-- What a PWM tick does to channel k is a function of FC, CW[k] and CP[k]. -/
theorem pwmTick_channel_congr (c : Config) (b b' : Block) (k : Nat) (hk : k < 16) (hfc : b.fc = b'.fc)
    (hcw : b.cw[k]? = b'.cw[k]?) (hcp : b.cp[k]? = b'.cp[k]?) :
    (pwmTick c b).outBit k = (pwmTick c b').outBit k ∧ (pwmTick c b).cp[k]? = (pwmTick c b').cp[k]? := by
  by_cases h : b.fc = 0#16
  · rw [pwmTick_boundary c b h, pwmTick_boundary c b' (hfc ▸ h), pwmBoundary_outBit, pwmBoundary_outBit]
    exact ⟨rfl, hcw⟩
  · rw [pwmTick_count c b h, pwmTick_count c b' (hfc ▸ h)]
    simp only [pwmCount_outBit c _ k hk, pwmCount_cp_get, hcp, and_self]

/-- Settles O29: both ticks leave `pwmTick` of their block. -/
theorem pwmChannelsIndependent : Obligations.PwmChannelsIndependent := by
  rintro s₁ s₂ t₁ t₂ k ⟨⟨⟨-, hn⟩, -⟩, -⟩ - hcfg hk harmed₁ harmed₂ hfc hcw hcp h₁ h₂
  cases (exec_tickpwm_armed s₁ harmed₁).symm.trans h₁
  cases (exec_tickpwm_armed s₂ harmed₂).symm.trans h₂
  rw [driveOut_block, driveOut_block, ← hcfg]
  exact pwmTick_channel_congr s₁.cfg s₁.block s₂.block k (by omega) hfc hcw hcp

/-! ## The drive (R81) -/

theorem driveMasks_disjoint (c : Config) (out : Mask) :
    (driveMasks c out).setMask &&& (driveMasks c out).clearMask = 0#16 := by
  simp [driveMasks, ← BitVec.and_assoc]

theorem getLsbD_driveMasks_clear (c : Config) (hn : c.nPwm ≤ 16) (out : Mask) (k : Nat) (hk : k < 16) :
    (driveMasks c out).clearMask.getLsbD k = (!out.getLsbD k && decide (k < c.nPwm)) := by
  rw [driveMasks, BitVec.getLsbD_and, BitVec.getLsbD_not, getLsbD_ones _ k hn, decide_eq_true hk, Bool.true_and]

/-- Levels within N_PWM lines have no bit above them. -/
theorem getLsbD_of_within (n : Nat) (hn : n ≤ 16) (out : Mask) (hout : out &&& ~~~ones n = 0#16) (k : Nat)
    (hk : n ≤ k) : out.getLsbD k = false := by
  by_cases hk16 : k < 16
  · have hbit := congrArg (BitVec.getLsbD · k) hout
    simpa only [BitVec.getLsbD_and, BitVec.getLsbD_not, getLsbD_ones n k hn, decide_eq_true hk16,
      decide_eq_false (Nat.not_lt.mpr hk), Bool.not_false, Bool.and_true, BitVec.getLsbD_zero] using hbit
  · exact BitVec.getLsbD_of_ge _ _ (Nat.le_of_not_lt hk16)

theorem driveMasks_cover (c : Config) (hn : c.nPwm ≤ 16) (out : Mask) (hout : out &&& ~~~ones c.nPwm = 0#16) :
    (driveMasks c out).setMask ||| (driveMasks c out).clearMask = ones c.nPwm := by
  apply BitVec.eq_of_getLsbD_eq
  intro k hk
  rw [BitVec.getLsbD_or, getLsbD_driveMasks_clear c hn out k hk, getLsbD_ones _ k hn, driveMasks]
  by_cases hlt : k < c.nPwm
  · simp [hlt]
  · simp [hlt, getLsbD_of_within _ hn out hout k (Nat.le_of_not_lt hlt)]

/-- A drive sets the lines of the configuration to its levels and leaves every other bit. -/
theorem getLsbD_driveMasks_apply (c : Config) (hn : c.nPwm ≤ 16) (out : Mask) (hout : out &&& ~~~ones c.nPwm = 0#16)
    (lines : Mask) (k : Nat) :
    ((driveMasks c out).apply lines).getLsbD k = if k < c.nPwm then out.getLsbD k else lines.getLsbD k := by
  by_cases hk : k < 16
  · rw [Drive.apply, BitVec.getLsbD_or, BitVec.getLsbD_and, BitVec.getLsbD_not,
      getLsbD_driveMasks_clear c hn out k hk, driveMasks]
    by_cases hlt : k < c.nPwm
    · cases out.getLsbD k <;> simp [hlt, hk]
    · rw [getLsbD_of_within _ hn out hout k (Nat.le_of_not_lt hlt)]
      simp [hlt, hk]
  · rw [if_neg (by omega), BitVec.getLsbD_of_ge _ k (by omega), BitVec.getLsbD_of_ge lines k (by omega)]

theorem driveAfter_tickpwm_armed (c : Config) (b : Block) (h : b.pwmArmed = true) :
    driveAfter c .tickpwm b = some (driveMasks c (blockAfter c .tickpwm b).out) := by
  rw [blockAfter_tickpwm_armed c b h]
  exact if_pos h

/-- Nothing but an armed PWM tick drives. -/
theorem driveAfter_eq_none (c : Config) (i : Instr) (b : Block) (h : ¬(i = .tickpwm ∧ b.pwmArmed = true)) :
    driveAfter c i b = none := by
  cases i with
  | tickpwm => exact if_neg fun harmed => h ⟨rfl, harmed⟩
  | _ => rfl

/-- Settles O28: an armed tick drives the masks of the levels it leaves, which are within N_PWM lines. -/
theorem driveCoversEveryLine : Obligations.DriveCoversEveryLine := by
  rintro s ⟨hc, hb⟩ i t hexec
  cases (exec_eq_stateAfter i s).symm.trans hexec
  split
  next h =>
    obtain ⟨rfl, harmed⟩ := h
    obtain ⟨-, -, -, -, -, hout⟩ := blockAfter_wf s.cfg hc .tickpwm s.block hb
    obtain ⟨⟨-, hn⟩, -⟩ := hc
    exact ⟨_, driveAfter_tickpwm_armed s.cfg s.block harmed, rfl, driveMasks_disjoint _ _,
      driveMasks_cover _ hn _ hout, getLsbD_driveMasks_apply _ hn _ hout⟩
  next h => exact driveAfter_eq_none s.cfg i s.block h

/-! ## The drives of a run (R81) -/

/-- The drive of an ordinary event at a block. -/
def driveAfterEvent (c : Config) (e : Event) (b : Block) : Option Drive :=
  match decodeEvent e with
  | .op i => driveAfter c i b
  | _ => none

theorem driveAfterEvent_op (c : Config) (e : Event) (i : Instr) (b : Block) (hd : decodeEvent e = .op i) :
    driveAfterEvent c e b = driveAfter c i b := by
  simp only [driveAfterEvent, hd]

theorem driveAfterEvent_illegalCommand (c : Config) (e : Event) (b : Block) (why : DecodeReject)
    (hd : decodeEvent e = .illegalCommand why) : driveAfterEvent c e b = none := by
  simp only [driveAfterEvent, hd]

/-- The drives of ordinary events, in order, read from the block alone. -/
def drivesAfterEvents (c : Config) (es : List Event) (b : Block) : List Drive :=
  match es with
  | [] => []
  | e :: es => (driveAfterEvent c e b).toList ++ drivesAfterEvents c es (blockAfterEvent c 0#16 e b)

theorem drivesAfterEvents_cons (c : Config) (e : Event) (es : List Event) (b : Block) :
    drivesAfterEvents c (e :: es) b =
      (driveAfterEvent c e b).toList ++ drivesAfterEvents c es (blockAfterEvent c 0#16 e b) := rfl

theorem drivesAfterEvents_append (c : Config) (es es' : List Event) (b : Block) :
    drivesAfterEvents c (es ++ es') b =
      drivesAfterEvents c es b ++ drivesAfterEvents c es' (blockAfterEvents c es b) := by
  induction es generalizing b with
  | nil => rfl
  | cons e es ih =>
    rw [List.cons_append, drivesAfterEvents_cons, drivesAfterEvents_cons, ih, List.append_assoc,
      blockAfterEvents_cons]

/-- Where a run of ordinary events ends. -/
theorem runEvents_eq (s t : State) (hc : s.cfg.legal) (es : List Event) (hes : ∀ e ∈ es, isOrdinary e = true)
    (h : runEvents s es = .next t) : t.cfg = s.cfg ∧ t.block = blockAfterEvents s.cfg es s.block := by
  obtain ⟨u, hu, hcfg, -, hblock⟩ := runEvents_ordinary s hc es hes
  cases hu.symm.trans h
  exact ⟨hcfg, hblock⟩

/-- What the step of an ordinary event hands to the GPIO capability. -/
theorem step_drive (s t : State) (e : Event) (rest : List Event) (hs : s.schedule = e :: rest)
    (he : isOrdinary e = true) (h : step s = .next t) : t.drive = driveAfterEvent s.cfg e s.block := by
  obtain ⟨i, hd⟩ | ⟨why, hd⟩ := ordinary_cases e he
  · rw [step_eq_stateAfter s t e rest i hs hd h, stateAfter_drive, driveAfterEvent_op _ e i _ hd]
  · obtain ⟨hc, -⟩ := step_cases s t h
    rw [step_cons s hc e rest hs, hd] at h
    cases h
    rw [illegalCommand_drive, driveAfterEvent_illegalCommand _ e _ why hd]

/-- The drives of a run of ordinary events are `drivesAfterEvents`. -/
theorem drivesOf_ordinary (s : State) (hc : s.cfg.legal) (es : List Event) (hes : ∀ e ∈ es, isOrdinary e = true) :
    drivesOf s es = drivesAfterEvents s.cfg es s.block := by
  induction es generalizing s with
  | nil => rfl
  | cons e es ih =>
    have he := hes e List.mem_cons_self
    obtain ⟨hreal, hreset⟩ := (isOrdinary_iff e).mp he
    obtain ⟨t, hstep, hcfg, -, hblock⟩ := step_completes (scheduled s (e :: es)) hc e es rfl hreal
    rw [drivesOf_cons s t e es hstep, step_drive (scheduled s (e :: es)) t e es rfl he hstep,
      ih t (by rwa [hcfg]) (fun x hx => hes x (List.mem_cons_of_mem e hx)), hcfg, hblock,
      blockAfterEvent_ordinary _ _ 0#16 e _ hreset]
    rfl

theorem highCount_append (k : Nat) (ds ds' : List Drive) :
    highCount k (ds ++ ds') = highCount k ds + highCount k ds' := List.countP_append

/-! ## One ordinary event at an armed block -/

theorem pwmTicks_append (es es' : List Event) : pwmTicks (es ++ es') = pwmTicks es + pwmTicks es' :=
  List.countP_append

theorem pwmTicks_cons (e : Event) (es : List Event) : pwmTicks (e :: es) = pwmTicks [e] + pwmTicks es :=
  pwmTicks_append [e] es

theorem pwmTicks_of_tick (e : Event) (h : isPwmTick e = true) : pwmTicks [e] = 1 := by simp [pwmTicks, h]

theorem pwmTicks_of_not_tick (e : Event) (h : isPwmTick e = false) : pwmTicks [e] = 0 := by simp [pwmTicks, h]

/-- An ordinary event disarms no engine (R109). -/
theorem blockAfterEvent_pwmArmed (c : Config) (draw : Mask) (e : Event) (b : Block) (he : isOrdinary e = true)
    (harmed : b.pwmArmed = true) : (blockAfterEvent c draw e b).pwmArmed = true := by
  obtain ⟨i, hd⟩ | ⟨why, hd⟩ := ordinary_cases e he
  · rw [blockAfterEvent_op c draw e i b hd]
    exact blockAfter_pwmArmed c i b harmed
  · rwa [blockAfterEvent_illegalCommand c draw e b why hd]

theorem blockAfterEvent_tick (c : Config) (draw : Mask) (e : Event) (b : Block) (ht : isPwmTick e = true)
    (harmed : b.pwmArmed = true) : blockAfterEvent c draw e b = pwmTick c b := by
  rw [blockAfterEvent_op c draw e .tickpwm b ((isPwmTick_iff e).mp ht), blockAfter_tickpwm_armed c b harmed]

theorem driveAfterEvent_tick (c : Config) (e : Event) (b : Block) (ht : isPwmTick e = true)
    (harmed : b.pwmArmed = true) : driveAfterEvent c e b = some (driveMasks c (pwmTick c b).out) := by
  rw [driveAfterEvent_op c e .tickpwm b ((isPwmTick_iff e).mp ht), driveAfter_tickpwm_armed c b harmed,
    blockAfter_tickpwm_armed c b harmed]

/-- An ordinary event that is no PWM tick, or that meets an unarmed engine, leaves the engine where it was. -/
theorem blockAfterEvent_cp_fc_out (c : Config) (draw : Mask) (e : Event) (b : Block) (he : isOrdinary e = true)
    (h : isPwmTick e = false ∨ b.pwmArmed = false) :
    (blockAfterEvent c draw e b).cp = b.cp ∧ (blockAfterEvent c draw e b).fc = b.fc ∧
      (blockAfterEvent c draw e b).out = b.out := by
  obtain ⟨i, hd⟩ | ⟨why, hd⟩ := ordinary_cases e he
  · rw [blockAfterEvent_op c draw e i b hd]
    by_cases hi : i.mnemonic = .tickpwm
    · obtain rfl := eq_tickpwm_of_mnemonic i hi
      obtain ht | hunarmed := h
      · simp [isPwmTick, hd] at ht
      · rw [blockAfter_tickpwm_unarmed c b hunarmed]
        exact ⟨rfl, rfl, rfl⟩
    · exact blockAfter_cp_fc_out c i b hi
  · rw [blockAfterEvent_illegalCommand c draw e b why hd]
    exact ⟨rfl, rfl, rfl⟩

theorem driveAfterEvent_not_tick (c : Config) (e : Event) (b : Block) (he : isOrdinary e = true)
    (ht : isPwmTick e = false) : driveAfterEvent c e b = none := by
  obtain ⟨i, hd⟩ | ⟨why, hd⟩ := ordinary_cases e he
  · rw [driveAfterEvent_op c e i b hd]
    refine driveAfter_eq_none c i b ?_
    rintro ⟨rfl, -⟩
    simp [isPwmTick, hd] at ht
  · exact driveAfterEvent_illegalCommand c e b why hd

/-- Every armed PWM tick drives once, and nothing else drives. -/
theorem length_drivesAfterEvents (c : Config) (es : List Event) (b : Block) (harmed : b.pwmArmed = true)
    (hes : ∀ e ∈ es, isOrdinary e = true) : (drivesAfterEvents c es b).length = pwmTicks es := by
  induction es generalizing b with
  | nil => rfl
  | cons e es ih =>
    have he := hes e List.mem_cons_self
    rw [drivesAfterEvents_cons, pwmTicks_cons, List.length_append,
      ih _ (blockAfterEvent_pwmArmed c 0#16 e b he harmed) fun x hx => hes x (List.mem_cons_of_mem e hx)]
    cases ht : isPwmTick e with
    | false => rw [driveAfterEvent_not_tick c e b he ht, pwmTicks_of_not_tick e ht]; rfl
    | true => rw [driveAfterEvent_tick c e b ht harmed, pwmTicks_of_tick e ht]; rfl

/-! ## A channel in its frame (R80, R82) -/

/-- The armed block stands at in-frame index `t` of a frame in which channel `k` loaded width `w`: FC = F - 1 - t,
CP[k] = max (w - t) 0, and line k is high exactly when 1 ≤ t ≤ w. -/
structure InFrame (c : Config) (k w t : Nat) (b : Block) : Prop where
  armed : b.pwmArmed = true
  fc : b.fc.toNat + t + 1 = c.f
  period : ∃ p, b.cp[k]? = some p ∧ p.toNat = w - t
  level : b.outBit k = decide (1 ≤ t ∧ t ≤ w)

/-- The next PWM tick is a boundary tick, and loads width `w` on channel `k` (R76, R78). -/
structure AtBoundary (k : Nat) (w : U16) (b : Block) : Prop where
  armed : b.pwmArmed = true
  fc : b.fc = 0#16
  cw : b.cw[k]? = some w

/-- A boundary tick starts a frame with the commanded width. -/
theorem AtBoundary.tick {k : Nat} {w : U16} {b : Block} (h : AtBoundary k w b) (c : Config) (hc : c.legal) :
    InFrame c k w.toNat 0 (pwmTick c b) := by
  rw [pwmTick_boundary c b h.fc]
  refine ⟨h.armed, ?_, ⟨w, h.cw, rfl⟩, pwmBoundary_outBit c b k⟩
  rw [pwmBoundary_fc, frameReload_toNat c hc]
  obtain ⟨-, -, ⟨hf, -⟩, -⟩ := hc
  omega

/-- Before the end of its frame a tick moves the index on by one: the period counts down, and the line is high while
it lasts. -/
theorem InFrame.tick {c : Config} {k w t : Nat} {b : Block} (h : InFrame c k w t b)
    (hlit : c.literalDecrement = false) (hk : k < 16) (ht : t + 1 < c.f) : InFrame c k w (t + 1) (pwmTick c b) := by
  obtain ⟨harmed, hfc, ⟨p, hp, hpval⟩, -⟩ := h
  have hne : b.fc ≠ 0#16 := by
    rw [ne_eq, fc_eq_zero_iff]
    omega
  rw [pwmTick_count c b hne]
  refine ⟨harmed, ?_, ⟨nextPeriod p, by rw [pwmCount_cp_get, hp, Option.map_some], ?_⟩, ?_⟩
  · rw [pwmCount_fc, toNat_pred b.fc hne]
    omega
  · rw [nextPeriod_toNat, hpval, Nat.sub_sub]
  · rw [pwmCount_outBit c b k hk, hp, Option.map_some, Option.getD_some, channelHigh_normative c hlit, hpval,
      decide_eq_decide]
    omega

/-- At the end of a frame FC is 0, so the next tick is a boundary tick. -/
theorem InFrame.fc_eq_zero_iff {c : Config} {k w t : Nat} {b : Block} (h : InFrame c k w t b) :
    b.fc = 0#16 ↔ t + 1 = c.f := by
  have hfc := h.fc
  rw [Machine.fc_eq_zero_iff]
  omega

/-- What is not an armed PWM tick leaves the place in the frame as it was. -/
theorem InFrame.afterOther {c : Config} {k w t : Nat} {b : Block} (h : InFrame c k w t b) (draw : Mask) (e : Event)
    (he : isOrdinary e = true) (ht : isPwmTick e = false) : InFrame c k w t (blockAfterEvent c draw e b) := by
  obtain ⟨hcp, hfc, hout⟩ := blockAfterEvent_cp_fc_out c draw e b he (.inl ht)
  refine ⟨blockAfterEvent_pwmArmed c draw e b he h.armed, ?_, ?_, ?_⟩
  · rw [hfc]
    exact h.fc
  · rw [hcp]
    exact h.period
  · rw [Block.outBit, hout]
    exact h.level

/-- Over an ordinary event within the frame the index goes up by one for a PWM tick. -/
theorem InFrame.afterEvent {c : Config} {k w t : Nat} {b : Block} (h : InFrame c k w t b)
    (hlit : c.literalDecrement = false) (hk : k < 16) (draw : Mask) (e : Event) (he : isOrdinary e = true)
    (ht : t + pwmTicks [e] < c.f) : InFrame c k w (t + pwmTicks [e]) (blockAfterEvent c draw e b) := by
  cases htick : isPwmTick e with
  | false =>
    rw [pwmTicks_of_not_tick e htick]
    exact h.afterOther draw e he htick
  | true =>
    rw [pwmTicks_of_tick e htick] at ht ⊢
    rw [blockAfterEvent_tick c draw e b htick h.armed]
    exact h.tick hlit hk ht

theorem InFrame.afterEvents {c : Config} {k w t : Nat} {b : Block} (h : InFrame c k w t b)
    (hlit : c.literalDecrement = false) (hk : k < 16) (es : List Event) (hes : ∀ e ∈ es, isOrdinary e = true)
    (ht : t + pwmTicks es < c.f) : InFrame c k w (t + pwmTicks es) (blockAfterEvents c es b) := by
  induction es generalizing t b with
  | nil => exact h
  | cons e es ih =>
    rw [pwmTicks_cons, ← Nat.add_assoc] at ht ⊢
    exact ih (h.afterEvent hlit hk 0#16 e (hes e List.mem_cons_self) (by omega))
      (fun x hx => hes x (List.mem_cons_of_mem e hx)) ht

/-- The high drives of an ordinary event within a frame, counted as the indices from 1 to w that it passes. -/
theorem InFrame.highCount_event_add {c : Config} {k w t : Nat} {b : Block} (h : InFrame c k w t b)
    (hlit : c.literalDecrement = false) (hk : k < 16) (e : Event) (he : isOrdinary e = true)
    (ht : t + pwmTicks [e] < c.f) :
    highCount k (driveAfterEvent c e b).toList + min w t = min w (t + pwmTicks [e]) := by
  cases htick : isPwmTick e with
  | false =>
    rw [driveAfterEvent_not_tick c e b he htick, pwmTicks_of_not_tick e htick]
    exact Nat.zero_add _
  | true =>
    rw [pwmTicks_of_tick e htick] at ht ⊢
    have hlevel : (driveMasks c (pwmTick c b).out).setMask.getLsbD k = decide (1 ≤ t + 1 ∧ t + 1 ≤ w) :=
      (h.tick hlit hk ht).level
    rw [driveAfterEvent_tick c e b htick h.armed, Option.toList_some, highCount, List.countP_singleton, hlevel]
    simp only [decide_eq_true_eq]
    split <;> omega

/-- From index t to index t + n of a frame of width w, line k is high on the indices among them from 1 to w. -/
theorem InFrame.highCount_add {c : Config} {k w t : Nat} {b : Block} (h : InFrame c k w t b)
    (hlit : c.literalDecrement = false) (hk : k < 16) (es : List Event) (hes : ∀ e ∈ es, isOrdinary e = true)
    (ht : t + pwmTicks es < c.f) :
    highCount k (drivesAfterEvents c es b) + min w t = min w (t + pwmTicks es) := by
  induction es generalizing t b with
  | nil => exact Nat.zero_add _
  | cons e es ih =>
    rw [pwmTicks_cons, ← Nat.add_assoc] at ht ⊢
    have he := hes e List.mem_cons_self
    have hfirst := h.highCount_event_add hlit hk e he (by omega)
    have hrest := ih (h.afterEvent hlit hk 0#16 e he (by omega)) (fun x hx => hes x (List.mem_cons_of_mem e hx)) ht
    rw [drivesAfterEvents_cons, highCount_append]
    omega

/-! ## One frame and a window of F ticks (R82, R83) -/

theorem isPwmTick_eventOf_tickpwm : isPwmTick (eventOf .tickpwm) = true :=
  (isPwmTick_iff _).mpr (decodeEvent_eventOf .tickpwm rfl)

theorem isOrdinary_eventOf (i : Instr) (hwf : i.wf = true) : isOrdinary (eventOf i) = true := by
  simp [isOrdinary, isReal, isReset, decodeEvent_eventOf i hwf]

theorem ordinary_tickpwm_cons (es : List Event) (hes : ∀ e ∈ es, isOrdinary e = true) :
    ∀ e ∈ eventOf .tickpwm :: es, isOrdinary e = true :=
  List.forall_mem_cons.mpr ⟨isOrdinary_eventOf .tickpwm rfl, hes⟩

/-- A boundary tick and `n` further PWM ticks, fewer than F, end at index n of the frame it starts. -/
theorem AtBoundary.afterEvents {c : Config} {k : Nat} {w : U16} {b : Block} (h : AtBoundary k w b) (hc : c.legal)
    (hlit : c.literalDecrement = false) (hk : k < 16) (es : List Event) (hes : ∀ e ∈ es, isOrdinary e = true)
    (ht : pwmTicks es < c.f) :
    InFrame c k w.toNat (pwmTicks es) (blockAfterEvents c (eventOf .tickpwm :: es) b) := by
  have hframe := (h.tick c hc).afterEvents hlit hk es hes
  rw [Nat.zero_add] at hframe
  rw [blockAfterEvents_cons, blockAfterEvent_tick c _ _ b isPwmTick_eventOf_tickpwm h.armed]
  exact hframe ht

/-- A boundary tick and `n` further PWM ticks, fewer than F, drive line k high min w n times. -/
theorem AtBoundary.highCount_eq {c : Config} {k : Nat} {w : U16} {b : Block} (h : AtBoundary k w b) (hc : c.legal)
    (hlit : c.literalDecrement = false) (hk : k < 16) (es : List Event) (hes : ∀ e ∈ es, isOrdinary e = true)
    (ht : pwmTicks es < c.f) :
    highCount k (drivesAfterEvents c (eventOf .tickpwm :: es) b) = min w.toNat (pwmTicks es) := by
  have hlow : highCount k (driveAfterEvent c (eventOf .tickpwm) b).toList = 0 := by
    rw [driveAfterEvent_tick c _ b isPwmTick_eventOf_tickpwm h.armed, pwmTick_boundary c b h.fc]
    simp [highCount, driveMasks]
  have hcount := (h.tick c hc).highCount_add hlit hk es hes
  rw [Nat.zero_add, Nat.min_zero, Nat.add_zero] at hcount
  rw [drivesAfterEvents_cons, highCount_append, hlow, Nat.zero_add,
    blockAfterEvent_tick c _ _ b isPwmTick_eventOf_tickpwm h.armed]
  exact hcount ht

/-- A channel with a commanded width is one of the configuration, and the width is below F (R16). -/
theorem Block.wf.width_bounds {c : Config} {b : Block} (hb : b.wf c) (hc : c.legal) {k : Nat} {w : U16}
    (hcw : b.cw[k]? = some w) : k < 16 ∧ w.toNat < c.f := by
  obtain ⟨⟨-, hn⟩, -⟩ := hc
  obtain ⟨-, ⟨hlen, -⟩, hlt, -⟩ := hb
  have hk : k < b.cw.length := (List.getElem?_eq_some_iff.mp hcw).1
  exact ⟨by omega, hlt w (List.mem_of_getElem? hcw)⟩

/-- Settles O44: after the boundary tick and t ticks the channel stands at index t of its frame. -/
theorem frameWaveform : Obligations.FrameWaveform := by
  rintro s es k w ⟨hc, hb⟩ hlit harmed hfc hcw hes ht
  obtain ⟨hk, -⟩ := hb.width_bounds hc hcw
  obtain ⟨t, hrun, -, -, hblock⟩ :=
    runEvents_ordinary s hc _ (ordinary_tickpwm_cons es hes)
  have hframe := AtBoundary.afterEvents ⟨harmed, hfc, hcw⟩ hc hlit hk es hes ht
  rw [← hblock] at hframe
  exact ⟨t, hrun, hframe.period, hframe.level⟩

/-- Settles O45: the frame's F ticks drive once each, and pass every index from 1 to w. -/
theorem frameHighTicks : Obligations.FrameHighTicks := by
  rintro s es k w ⟨hc, hb⟩ hlit harmed hfc hcw hes ht
  obtain ⟨hk, hw⟩ := hb.width_bounds hc hcw
  have hall := ordinary_tickpwm_cons es hes
  rw [drivesOf_ordinary s hc _ hall]
  constructor
  · rw [length_drivesAfterEvents s.cfg _ s.block harmed hall, pwmTicks_cons,
      pwmTicks_of_tick _ isPwmTick_eventOf_tickpwm]
    omega
  · rw [AtBoundary.highCount_eq ⟨harmed, hfc, hcw⟩ hc hlit hk es hes (by omega)]
    omega

/-- The high drives of a window that goes from index t of a frame of width w1 to its end, and from the boundary tick of
the next frame, of width w2, into that frame. -/
theorem InFrame.highCount_window {c : Config} {k w₁ t : Nat} {w₂ : U16} {b : Block} (h : InFrame c k w₁ t b)
    (hc : c.legal) (hlit : c.literalDecrement = false) (hk : k < 16) (es₁ es₂ : List Event)
    (hes₁ : ∀ e ∈ es₁, isOrdinary e = true) (hes₂ : ∀ e ∈ es₂, isOrdinary e = true)
    (hend : t + pwmTicks es₁ + 1 = c.f) (ht : pwmTicks es₂ < c.f)
    (hcw : (blockAfterEvents c es₁ b).cw[k]? = some w₂) :
    highCount k (drivesAfterEvents c (es₁ ++ eventOf .tickpwm :: es₂) b) + min w₁ t =
      min w₁ (c.f - 1) + min w₂.toNat (pwmTicks es₂) := by
  have hlast := h.afterEvents hlit hk es₁ hes₁ (by omega)
  have hfirst := h.highCount_add hlit hk es₁ hes₁ (by omega)
  have hnext : AtBoundary k w₂ (blockAfterEvents c es₁ b) := ⟨hlast.armed, hlast.fc_eq_zero_iff.mpr hend, hcw⟩
  rw [drivesAfterEvents_append, highCount_append, hnext.highCount_eq hc hlit hk es₂ hes₂ ht]
  omega

/-- Settles O46: the rest of the first frame has w1 - min w1 k high ticks, the start of the next one min w2 k. -/
theorem windowHighTicks : Obligations.WindowHighTicks := by
  rintro s m es₀ es₁ es₂ k w₁ w₂ b ⟨hc, hb⟩ hlit harmed hfc hcw₁ hes₀ hes₁ hes₂ hticks hsame hm hrun hcw₂
  obtain ⟨hk, hw₁⟩ := hb.width_bounds hc hcw₁
  obtain ⟨hmcfg, hmblock⟩ := runEvents_eq s m hc _ (ordinary_tickpwm_cons es₀ hes₀) hm
  obtain ⟨-, hbblock⟩ := runEvents_eq m b (hmcfg ▸ hc) es₁ hes₁ hrun
  have hframe := AtBoundary.afterEvents ⟨harmed, hfc, hcw₁⟩ hc hlit hk es₀ hes₀ (by omega)
  rw [← hmblock] at hframe
  rw [hbblock, hmcfg] at hcw₂
  have hall : ∀ e ∈ es₁ ++ eventOf .tickpwm :: es₂, isOrdinary e = true :=
    List.forall_mem_append.mpr ⟨hes₁, ordinary_tickpwm_cons es₂ hes₂⟩
  have hcount := hframe.highCount_window hc hlit hk es₁ es₂ hes₁ hes₂ (by omega) (by omega) hcw₂
  rw [drivesOf_ordinary m (hmcfg ▸ hc) _ hall, hmcfg]
  constructor
  · rw [length_drivesAfterEvents s.cfg _ m.block hframe.armed hall, pwmTicks_append, pwmTicks_cons,
      pwmTicks_of_tick _ isPwmTick_eventOf_tickpwm]
    omega
  · omega

/-! ## Frame after frame with one width (R84, R86) -/

/-- After `n` armed PWM ticks, counted from FC = 0, while CW[k] = w: no frame has begun yet, or tick n - 1 is at index
(n - 1) mod F of a frame of width w. -/
structure Steady (c : Config) (k : Nat) (w : U16) (n : Nat) (b : Block) : Prop where
  armed : b.pwmArmed = true
  cw : b.cw[k]? = some w
  start : n = 0 → b.fc = 0#16
  inFrame : ∀ j, n = j + 1 → InFrame c k w.toNat (j % c.f) b

/-- With CW[k] kept the frames follow on each other: the index counts modulo F. -/
theorem InFrame.tick_steady {c : Config} {k t : Nat} {w : U16} {b : Block} (h : InFrame c k w.toNat t b)
    (hc : c.legal) (hlit : c.literalDecrement = false) (hk : k < 16) (hcw : b.cw[k]? = some w) :
    InFrame c k w.toNat ((t + 1) % c.f) (pwmTick c b) := by
  have hfc := h.fc
  by_cases hlast : t + 1 = c.f
  · rw [hlast, Nat.mod_self]
    exact AtBoundary.tick ⟨h.armed, h.fc_eq_zero_iff.mpr hlast, hcw⟩ c hc
  · rw [Nat.mod_eq_of_lt (by omega)]
    exact h.tick hlit hk (by omega)

theorem Steady.tick {c : Config} {k n : Nat} {w : U16} {b : Block} (h : Steady c k w n b) (hc : c.legal)
    (hlit : c.literalDecrement = false) (hk : k < 16) : Steady c k w (n + 1) (pwmTick c b) := by
  refine ⟨by rw [Block.pwmArmed, pwmTick_ctrl]; exact h.armed, by rw [pwmTick_cw]; exact h.cw, nofun, ?_⟩
  rintro _ ⟨⟩
  cases n with
  | zero =>
    rw [Nat.zero_mod]
    exact AtBoundary.tick ⟨h.armed, h.start rfl, h.cw⟩ c hc
  | succ j =>
    rw [← Nat.mod_add_mod]
    exact (h.inFrame j rfl).tick_steady hc hlit hk h.cw

theorem Steady.afterEvent {c : Config} {k n : Nat} {w : U16} {b : Block} (h : Steady c k w n b) (hc : c.legal)
    (hlit : c.literalDecrement = false) (hk : k < 16) (hlen : b.cw.length = c.nPwm) (draw : Mask) (e : Event)
    (he : isOrdinary e = true) (hset : setwOf k e = none) :
    Steady c k w (n + pwmTicks [e]) (blockAfterEvent c draw e b) := by
  cases htick : isPwmTick e with
  | false =>
    obtain ⟨-, hfc, -⟩ := blockAfterEvent_cp_fc_out c draw e b he (.inl htick)
    have hcw := blockAfterEvent_cw c draw e b k w hlen h.cw he
    rw [lastWidth_of_setwOf_none c k w e hset] at hcw
    rw [pwmTicks_of_not_tick e htick]
    exact ⟨blockAfterEvent_pwmArmed c draw e b he h.armed, hcw, fun h0 => hfc.trans (h.start h0),
      fun j hj => (h.inFrame j hj).afterOther draw e he htick⟩
  | true =>
    rw [pwmTicks_of_tick e htick, blockAfterEvent_tick c draw e b htick h.armed]
    exact h.tick hc hlit hk

theorem Steady.afterEvents {c : Config} {k n : Nat} {w : U16} {b : Block} (h : Steady c k w n b) (hc : c.legal)
    (hlit : c.literalDecrement = false) (hk : k < 16) (hb : b.wf c) (es : List Event)
    (hes : ∀ e ∈ es, isOrdinary e = true ∧ setwOf k e = none) :
    Steady c k w (n + pwmTicks es) (blockAfterEvents c es b) := by
  induction es generalizing n b with
  | nil => exact h
  | cons e es ih =>
    obtain ⟨he, hset⟩ := hes e List.mem_cons_self
    obtain ⟨-, ⟨hlen, -⟩, -⟩ := id hb
    rw [pwmTicks_cons, ← Nat.add_assoc]
    exact ih (h.afterEvent hc hlit hk hlen 0#16 e he hset) (blockAfterEvent_wf c hc 0#16 e b hb)
      fun x hx => hes x (List.mem_cons_of_mem e hx)

/-- Settles O48: after tick k the channel stands at index k mod F of a frame of width w. -/
theorem steadyWidthWaveform : Obligations.SteadyWidthWaveform := by
  rintro s es ch k w ⟨hc, hb⟩ hlit harmed hfc hcw hes hk
  obtain ⟨hch, -⟩ := hb.width_bounds hc hcw
  obtain ⟨t, hrun, -, -, hblock⟩ := runEvents_ordinary s hc es fun e he => (hes e he).1
  have hstart : Steady s.cfg ch w 0 s.block := ⟨harmed, hcw, fun _ => hfc, nofun⟩
  have hend := hstart.afterEvents hc hlit hch hb es hes
  rw [hk, ← hblock] at hend
  exact ⟨t, hrun, (hend.inFrame k (Nat.zero_add _)).level⟩

/-- Settles O49: the waveform of a steady width for F = 1000 and w = 150. -/
theorem scenarioWidth150 : Obligations.ScenarioWidth150 := by
  intro s es k hwf hf hlit harmed hfc hcw hes hk
  obtain ⟨t, hrun, hlevel⟩ := steadyWidthWaveform s es 0 k 150#16 hwf hlit harmed hfc hcw hes hk
  have hwidth : (150#16).toNat = 150 := rfl
  rw [hf, hwidth] at hlevel
  refine ⟨t, hrun, fun hhigh => ?_, fun hlow => ?_⟩
  · rw [hlevel, decide_eq_true hhigh]
  · rw [hlevel, decide_eq_false (by omega)]

/-! ## The first frame after Reset (R87) -/

theorem blockAfterEvent_pwmUnarmed (c : Config) (draw : Mask) (e : Event) (b : Block) (he : isOrdinary e = true)
    (hinit : isInit e = false) (h : b.pwmArmed = false) : (blockAfterEvent c draw e b).pwmArmed = false := by
  obtain ⟨i, hd⟩ | ⟨why, hd⟩ := ordinary_cases e he
  · have hi : i.mnemonic ≠ .init := by
      cases i with
      | init => simp [isInit, hd] at hinit
      | _ => exact nofun
    rwa [blockAfterEvent_op c draw e i b hd, Block.pwmArmed, blockAfter_ctrl c i b hi]
  · rwa [blockAfterEvent_illegalCommand c draw e b why hd]

/-- Before INIT no event moves the frame, PWM ticks included (R75, R107). -/
theorem blockAfterEvents_unarmed (c : Config) (es : List Event) (b : Block) (h : b.pwmArmed = false)
    (hes : ∀ e ∈ es, isOrdinary e = true ∧ isInit e = false) :
    (blockAfterEvents c es b).pwmArmed = false ∧ (blockAfterEvents c es b).fc = b.fc := by
  induction es generalizing b with
  | nil => exact ⟨h, rfl⟩
  | cons e es ih =>
    obtain ⟨he, hinit⟩ := hes e List.mem_cons_self
    obtain ⟨-, hfc, -⟩ := blockAfterEvent_cp_fc_out c 0#16 e b he (.inr h)
    rw [blockAfterEvents_cons, ← hfc]
    exact ih _ (blockAfterEvent_pwmUnarmed c 0#16 e b he hinit h) fun x hx => hes x (List.mem_cons_of_mem e hx)

/-- While no PWM tick comes, an armed engine stays armed and its frame stands still. -/
theorem blockAfterEvents_no_tick (c : Config) (es : List Event) (b : Block) (h : b.pwmArmed = true)
    (hes : ∀ e ∈ es, isOrdinary e = true ∧ isPwmTick e = false) :
    (blockAfterEvents c es b).pwmArmed = true ∧ (blockAfterEvents c es b).fc = b.fc := by
  induction es generalizing b with
  | nil => exact ⟨h, rfl⟩
  | cons e es ih =>
    obtain ⟨he, htick⟩ := hes e List.mem_cons_self
    obtain ⟨-, hfc, -⟩ := blockAfterEvent_cp_fc_out c 0#16 e b he (.inl htick)
    rw [blockAfterEvents_cons, ← hfc]
    exact ih _ (blockAfterEvent_pwmArmed c 0#16 e b he h) fun x hx => hes x (List.mem_cons_of_mem e hx)

/-- INIT between the two kinds of events arms the engine with FC as it was. -/
theorem blockAfterEvents_init (c : Config) (es₁ es₂ : List Event) (b : Block) (h : b.pwmArmed = false)
    (hes₁ : ∀ e ∈ es₁, isOrdinary e = true ∧ isInit e = false)
    (hes₂ : ∀ e ∈ es₂, isOrdinary e = true ∧ isPwmTick e = false) :
    (blockAfterEvents c (es₁ ++ eventOf .init :: es₂) b).pwmArmed = true ∧
      (blockAfterEvents c (es₁ ++ eventOf .init :: es₂) b).fc = b.fc := by
  obtain ⟨-, hfc₁⟩ := blockAfterEvents_unarmed c es₁ b h hes₁
  rw [blockAfterEvents_append, blockAfterEvents_cons,
    blockAfterEvent_op c 0#16 _ .init _ (decodeEvent_eventOf .init rfl), blockAfter_init, ← hfc₁]
  exact blockAfterEvents_no_tick c es₂ _ (pwmArmed_of_ctrl _ rfl) hes₂

/-- Settles O50: Reset leaves FC = 0, no event moves it before the tick, and CW holds the last commanded widths. -/
theorem firstArmedTickIsBoundary : Obligations.FirstArmedTickIsBoundary := by
  intro c es₁ es₂ hc hes₁ hes₂
  have hall : ∀ e ∈ es₁ ++ eventOf .init :: es₂, isOrdinary e = true :=
    List.forall_mem_append.mpr ⟨fun e he => (hes₁ e he).1,
      List.forall_mem_cons.mpr ⟨isOrdinary_eventOf .init rfl, fun e he => (hes₂ e he).1⟩⟩
  obtain ⟨s, hrun, hcfg, -, hblock⟩ := runEvents_ordinary (State.resetWith c) hc _ hall
  have hunarmed : (State.resetWith c).block.pwmArmed = false := by simp [State.resetWith, Block.pwmArmed]
  obtain ⟨harmed, hfc⟩ := blockAfterEvents_init (State.resetWith c).cfg es₁ es₂ _ hunarmed hes₁ hes₂
  rw [← hblock] at harmed hfc
  refine ⟨s, _, hrun, harmed, hfc, exec_tickpwm_armed s harmed, ?_⟩
  rw [pwmTick_boundary s.cfg s.block hfc]
  refine ⟨rfl, rfl, ?_, fun ch hch => ?_⟩
  · rw [driveOut_block, pwmBoundary_fc, hcfg]
    exact frameReload_toNat c hc
  · rw [driveOut_block, pwmBoundary_cp, hblock]
    exact blockAfterEvents_cw c hc _ _ ch 0#16 (resetBlock_wf c hc _) (by simp [State.resetWith, hch]) hall

end Sys2Proof.Machine
end

section
/-! PROOFS. O21, O30, O31, O33, O35, O53, O54, O55 and O56, of the family 41_ppm.md. First GETW and one PPM tick,
channel by channel (R92 to R98); then the events that can write DW (R103), and a pulse over any events, from its rising
edge to its falling edge and to the GETW after it (R99 to R102). -/

namespace Sys2Proof.Machine

/-! ## GETW (R97, R98) -/

/-- STATUS is 0 when a command is performed, so the response word is its DATA (R58, R59). -/
theorem responseWord_ok (data : U16) : responseWord .ok data = data.setWidth 32 := by
  apply BitVec.eq_of_getLsbD_eq
  intro k hk
  have happend : (responseWord .ok data).getLsbD k = BitVec.getLsbD (w := 4 + 12 + 16) (0#4 ++ 0#12 ++ data) k := rfl
  rw [happend]
  simp only [BitVec.getLsbD_append, BitVec.getLsbD_setWidth, BitVec.getLsbD_zero]
  by_cases hlow : k < 16
  · simp [hlow, hk]
  · simp [hlow, BitVec.getLsbD_of_ge data k (Nat.le_of_not_lt hlow)]

/-- Settles O21: a valid GETW ends in `respondOk` with the element of DW that the ranges give the channel. -/
theorem getwAnswersDecodedWidth : Obligations.GetwAnswersDecodedWidth := by
  rintro s ch ⟨-, -, ⟨-, -, -, hlen⟩, -⟩ hch
  have hdw : s.block.dw[ch]? = some s.block.dw[ch] := List.getElem?_eq_getElem (hlen ▸ hch)
  have hread : s.block.readDw ch = s.block.dw[ch] := by simp [Block.readDw, hdw]
  refine ⟨_, _, hdw, rfl, ?_⟩
  rw [exec_getw_valid ch s hch, hread, ← responseWord_ok]
  rfl

/-! ## One PPM tick, channel by channel (R92 to R96, R104) -/

/-- Settles O30: an unarmed tick ends silent with the block as it was. -/
theorem unarmedPpmTickHasNoEffect : Obligations.UnarmedPpmTickHasNoEffect := fun s smp h =>
  exec_tickppm_unarmed smp s h

theorem nextDw_high (c : Config) (a : U32) (d : U16) : nextDw c true a d = d := nextDw_unchanged c true a d rfl

theorem nextDw_low_plausible (c : Config) (hc : c.legal) (a : U32) (d : U16) (h : c.offset < a.toNat) :
    (nextDw c false a d).toNat = min (a.toNat - c.offset) c.dwMax :=
  nextDw_toNat c hc false a d (decide_eq_true h)

theorem nextDw_low_noise (c : Config) (a : U32) (d : U16) (h : a.toNat ≤ c.offset) : nextDw c false a d = d :=
  nextDw_unchanged c false a d (decide_eq_false (Nat.not_lt.mpr h))

/-- What an armed tick leaves on a channel, from its sample and its own two elements. -/
theorem ppmTick_channel (c : Config) (smp : Mask) (b : Block) (k : Nat) (a : U32) (d : U16)
    (hacc : b.acc[k]? = some a) (hdw : b.dw[k]? = some d) :
    (ppmTick c smp b).acc[k]? = some (nextAcc (sampleBit smp k) a) ∧
      (ppmTick c smp b).dw[k]? = some (nextDw c (sampleBit smp k) a d) := by
  rw [ppmTick_acc_get, ppmTick_dw_get, List.getD_eq_getElem?_getD, hacc, hdw]
  exact ⟨rfl, rfl⟩

/-- Settles O31: each channel by `ppmTick_channel`, with its sample high, low after noise, or low after a pulse. -/
theorem ppmTickChannelRule : Obligations.PpmTickChannelRule := by
  rintro s smp ⟨hc, -, ⟨-, -, hacclen, hdwlen⟩, -⟩ harmed
  refine ⟨_, exec_tickppm_armed smp s harmed, fun k a d hacc hdw => ?_, ?_, ?_, rfl⟩
  · obtain ⟨hacc', hdw'⟩ := ppmTick_channel s.cfg smp s.block k a d hacc hdw
    refine ⟨_, _, hacc', hdw', fun hhigh => ?_, fun hlow => ?_⟩
    · rw [sampleBit, hhigh]
      exact ⟨nextAcc_toNat true a, nextDw_high s.cfg a d⟩
    · rw [sampleBit, hlow]
      exact ⟨nextAcc_toNat false a, nextDw_low_plausible s.cfg hc a d, nextDw_low_noise s.cfg a d⟩
  · rw [silent_block, ppmTick_acc_length, hacclen]
  · rw [silent_block, ppmTick_dw_length, hdwlen]

/-- What a PPM tick does to channel k is a function of bit k of the sample, the armed bit, ACC[k] and DW[k]. -/
theorem blockAfter_tickppm_channel_congr (c : Config) (x y : Mask) (b b' : Block) (k : Nat)
    (harmed : b.ppmArmed = b'.ppmArmed) (hbit : sampleBit x k = sampleBit y k) (hacc : b.acc[k]? = b'.acc[k]?)
    (hdw : b.dw[k]? = b'.dw[k]?) :
    (blockAfter c (.tickppm x) b).acc[k]? = (blockAfter c (.tickppm y) b').acc[k]? ∧
      (blockAfter c (.tickppm x) b).dw[k]? = (blockAfter c (.tickppm y) b').dw[k]? := by
  cases h : b.ppmArmed with
  | false =>
    rw [blockAfter_tickppm_unarmed c x b h, blockAfter_tickppm_unarmed c y b' (harmed ▸ h)]
    exact ⟨hacc, hdw⟩
  | true =>
    rw [blockAfter_tickppm_armed c x b h, blockAfter_tickppm_armed c y b' (harmed ▸ h)]
    simp only [ppmTick_acc_get, ppmTick_dw_get, List.getD_eq_getElem?_getD, hbit, hacc, hdw, and_self]

/-- Settles O33: both ticks leave `blockAfter` of their block. -/
theorem ppmChannelsIndependent : Obligations.PpmChannelsIndependent := by
  intro s₁ s₂ t₁ t₂ x y k hcfg harmed hbit hacc hdw h₁ h₂
  cases (exec_eq_stateAfter _ s₁).symm.trans h₁
  cases (exec_eq_stateAfter _ s₂).symm.trans h₂
  rw [stateAfter_block, stateAfter_block, ← hcfg]
  exact blockAfter_tickppm_channel_congr s₁.cfg x y s₁.block s₂.block k harmed hbit hacc hdw

/-! ## The events that can write DW (R103) -/

/-- A word on a port that asks for an operation is the operation's own word on its own port. -/
theorem onPort_eq_eventOf (p : Port) (w : Word) (i : Instr) (h : decodeEvent (Event.onPort p w) = .op i) :
    i.wf = true ∧ Event.onPort p w = eventOf i := by
  cases hd : decodeOn p w with
  | op j =>
    cases (decodeEvent_onPort p w j hd).symm.trans h
    obtain ⟨hwf, rfl, rfl⟩ := (decodeOn_eq_op_iff p w i).mp hd
    exact ⟨hwf, rfl⟩
  | rejected why =>
    by_cases hp : p = .host
    · subst hp
      simp [Event.onPort, decodeEvent, show decodeHost w = .rejected why from hd] at h
    · nomatch (decodeEvent_strobe_rejected p w why hp hd).symm.trans h

/-- Exactly one event asks for a well-formed operation (R57). -/
theorem decodeEvent_eq_op_iff (e : Event) (i : Instr) : decodeEvent e = .op i ↔ i.wf = true ∧ e = eventOf i := by
  constructor
  · cases e with
    | host w => exact onPort_eq_eventOf .host w i
    | pwmStrobe w => exact onPort_eq_eventOf .pwm w i
    | ppmStrobe w => exact onPort_eq_eventOf .ppm w i
    | reset => exact nofun
  · rintro ⟨hwf, rfl⟩
    exact decodeEvent_eventOf i hwf

theorem ppmSample_eq_some_iff (e : Event) (smp : Mask) :
    ppmSample e = some smp ↔ decodeEvent e = .op (.tickppm smp) := by
  unfold ppmSample
  split
  next s hd => simp [hd]
  next hne => simpa using hne smp

/-- The low half of the strobe's word is the sample (R63). -/
theorem getLsbD_encode_tickppm (smp : Mask) (k : Nat) (hk : k < 16) :
    (encode (.tickppm smp)).getLsbD k = smp.getLsbD k := by
  rw [encode, getLsbD_commandWord, if_pos hk]

/-- A plausible pulse ends on channel k only at an armed PPM strobe with the line low and ACC[k] above OFFSET. -/
theorem plausibleEnd_spec (k : Nat) (s : State) (h : plausibleEnd k s = true) :
    ∃ smp rest, s.schedule = eventOf (.tickppm smp) :: rest ∧ s.block.ppmArmed = true ∧ smp.getLsbD k = false ∧
      ∃ a, s.block.acc[k]? = some a ∧ s.cfg.offset < a.toNat := by
  cases hs : s.schedule with
  | nil => simp [plausibleEnd, hs] at h
  | cons e rest =>
    cases hsmp : ppmSample e with
    | none => simp [plausibleEnd, hs, hsmp] at h
    | some smp =>
      obtain ⟨-, rfl⟩ := (decodeEvent_eq_op_iff e _).mp ((ppmSample_eq_some_iff e smp).mp hsmp)
      obtain ⟨⟨harmed, hlow⟩, hoff⟩ : (s.block.ppmArmed = true ∧ smp.getLsbD k = false) ∧
          s.cfg.offset < (s.block.acc.getD k 0#32).toNat := by
        simpa only [plausibleEnd, hs, hsmp, Bool.and_eq_true, Bool.not_eq_true', decide_eq_true_eq] using h
      refine ⟨smp, rest, rfl, harmed, hlow, ?_⟩
      cases hacc : s.block.acc[k]? with
      | none => simp [List.getD_eq_getElem?_getD, hacc] at hoff
      | some a => exact ⟨a, rfl, by rwa [List.getD_eq_getElem?_getD, hacc] at hoff⟩

/-- A step that is no Reset and changes DW[k] is the end of a plausible pulse on channel k. -/
theorem plausibleEnd_of_dw_ne (s t : State) (k : Nat) (hwf : s.wf) (hstep : step s = .next t)
    (hreset : ∀ e ∈ s.schedule.head?, isReset e = false) (hne : t.block.dw[k]? ≠ s.block.dw[k]?) :
    plausibleEnd k s = true := by
  obtain ⟨hc, hcfg, ⟨-, -, hblock, -⟩ | ⟨e, rest, hs, hreal, -, hblock⟩⟩ := step_cases s t hstep
  · exact absurd (by rw [hblock]) hne
  cases hdw : s.block.dw[k]? with
  | none =>
    have hlen : t.block.dw.length = s.block.dw.length := by
      obtain ⟨-, -, ⟨-, -, -, hs⟩, -⟩ := id hwf
      obtain ⟨-, -, ⟨-, -, -, ht⟩, -⟩ := step_wf s t hwf hstep
      rw [hs, ht, hcfg]
    rw [hdw, ne_eq, List.getElem?_eq_none_iff, hlen, ← List.getElem?_eq_none_iff] at hne
    exact absurd hdw hne
  | some d =>
    have he : isOrdinary e = true := (isOrdinary_iff e).mpr ⟨hreal, hreset e (by rw [hs]; rfl)⟩
    obtain ⟨d', hd', hpulse⟩ := blockAfterEvent_dw s hc e rest (Config.outInit s.draws) k d hs he hdw
    rw [hblock, hd', hdw] at hne
    by_contra hnot
    rw [if_neg hnot] at hpulse
    exact hne (congrArg some hpulse)

/-- Settles O35: the step ends a plausible pulse, so its event is a PPM strobe, whose word has the sample in its low
half. -/
theorem decodedWidthChangesOnlyAtPulseEnd : Obligations.DecodedWidthChangesOnlyAtPulseEnd := by
  intro s t k hwf hstep hreset hne
  obtain ⟨smp, rest, hs, harmed, hlow, hacc⟩ :=
    plausibleEnd_spec k s (plausibleEnd_of_dw_ne s t k hwf hstep hreset hne)
  obtain ⟨⟨-, ⟨-, hn⟩, -⟩, -, ⟨-, -, hlen, -⟩, -⟩ := hwf
  obtain ⟨a, ha, -⟩ := id hacc
  have hk : k < s.block.acc.length := (List.getElem?_eq_some_iff.mp ha).1
  refine ⟨encode (.tickppm smp), rest, hs, harmed, ?_, hacc⟩
  rw [getLsbD_encode_tickppm smp k (by omega), hlow]

/-! ## A pulse over any events (R93, R99) -/

/-- No operation disarms the PPM engine (R109). -/
theorem blockAfter_ppmArmed (c : Config) (i : Instr) (b : Block) (h : b.ppmArmed = true) :
    (blockAfter c i b).ppmArmed = true :=
  blockAfter_induction (motive := fun b' => b'.ppmArmed = true) c i b h
    (fun _ _ _ _ => h) (fun _ => ppmArmed_of_ctrl _ rfl) (fun _ _ => by rwa [pwmTick_ppmArmed]) (fun _ _ _ => h)

/-- The armed block stands in a pulse on channel `k` that is `n` PPM ticks long, with DW[k] as it was before it. -/
structure InPulse (k n : Nat) (d : U16) (b : Block) : Prop where
  armed : b.ppmArmed = true
  acc : ∃ a, b.acc[k]? = some a ∧ a.toNat = min n Config.accMax
  dw : b.dw[k]? = some d

/-- A high sample lengthens the pulse by one tick. -/
theorem InPulse.highTick {k n : Nat} {d : U16} {b : Block} (h : InPulse k n d b) (c : Config) (smp : Mask)
    (hhigh : sampleBit smp k = true) : InPulse k (n + 1) d (ppmTick c smp b) := by
  obtain ⟨harmed, ⟨a, ha, haval⟩, hdw⟩ := h
  obtain ⟨hacc', hdw'⟩ := ppmTick_channel c smp b k a d ha hdw
  rw [hhigh] at hacc' hdw'
  refine ⟨harmed, ⟨_, hacc', ?_⟩, by rw [hdw', nextDw_high]⟩
  rw [nextAcc_toNat, if_pos rfl, haval, min_min_add_one]

theorem ppmTicks_cons (e : Event) (es : List Event) : ppmTicks (e :: es) = ppmTicks [e] + ppmTicks es :=
  List.countP_append (l₁ := [e])

theorem ppmTicks_of_sample (e : Event) (smp : Mask) (h : ppmSample e = some smp) : ppmTicks [e] = 1 := by
  simp [ppmTicks, h]

theorem ppmTicks_of_no_sample (e : Event) (h : ppmSample e = none) : ppmTicks [e] = 0 := by simp [ppmTicks, h]

/-- An ordinary event that is no PPM tick leaves the pulses where they were. -/
theorem blockAfterEvent_acc_dw (c : Config) (draw : Mask) (e : Event) (b : Block) (he : isOrdinary e = true)
    (h : ppmSample e = none) :
    (blockAfterEvent c draw e b).acc = b.acc ∧ (blockAfterEvent c draw e b).dw = b.dw := by
  obtain ⟨i, hd⟩ | ⟨why, hd⟩ := ordinary_cases e he
  · rw [blockAfterEvent_op c draw e i b hd]
    refine blockAfter_acc_dw c i b fun hi => ?_
    cases i with
    | tickppm smp => nomatch h.symm.trans ((ppmSample_eq_some_iff e smp).mpr hd)
    | _ => nomatch hi
  · rw [blockAfterEvent_illegalCommand c draw e b why hd]
    exact ⟨rfl, rfl⟩

theorem blockAfterEvent_ppmArmed (c : Config) (draw : Mask) (e : Event) (b : Block) (he : isOrdinary e = true)
    (harmed : b.ppmArmed = true) : (blockAfterEvent c draw e b).ppmArmed = true := by
  obtain ⟨i, hd⟩ | ⟨why, hd⟩ := ordinary_cases e he
  · rw [blockAfterEvent_op c draw e i b hd]
    exact blockAfter_ppmArmed c i b harmed
  · rwa [blockAfterEvent_illegalCommand c draw e b why hd]

/-- Over an ordinary event the pulse gets one tick longer for a PPM tick, which samples the line high. -/
theorem InPulse.afterEvent {k n : Nat} {d : U16} {b : Block} (h : InPulse k n d b) (c : Config) (draw : Mask)
    (e : Event) (he : isOrdinary e = true) (hhigh : ∀ smp, ppmSample e = some smp → sampleBit smp k = true) :
    InPulse k (n + ppmTicks [e]) d (blockAfterEvent c draw e b) := by
  cases hsmp : ppmSample e with
  | none =>
    obtain ⟨hacc, hdw⟩ := blockAfterEvent_acc_dw c draw e b he hsmp
    rw [ppmTicks_of_no_sample e hsmp]
    exact ⟨blockAfterEvent_ppmArmed c draw e b he h.armed, by rw [hacc]; exact h.acc, by rw [hdw]; exact h.dw⟩
  | some smp =>
    rw [ppmTicks_of_sample e smp hsmp, blockAfterEvent_op c draw e _ b ((ppmSample_eq_some_iff e smp).mp hsmp),
      blockAfter_tickppm_armed c smp b h.armed]
    exact h.highTick c smp (hhigh smp hsmp)

theorem InPulse.afterEvents {k n : Nat} {d : U16} {b : Block} (h : InPulse k n d b) (c : Config) (es : List Event)
    (hes : ∀ e ∈ es, isOrdinary e = true) (hhigh : samplesAll k true es) :
    InPulse k (n + ppmTicks es) d (blockAfterEvents c es b) := by
  induction es generalizing n b with
  | nil => exact h
  | cons e es ih =>
    rw [ppmTicks_cons, ← Nat.add_assoc]
    exact ih (h.afterEvent c 0#16 e (hes e List.mem_cons_self) (hhigh e List.mem_cons_self))
      (fun x hx => hes x (List.mem_cons_of_mem e hx)) fun x hx => hhigh x (List.mem_cons_of_mem e hx)

/-- A low sample ends the pulse: it clears ACC[k], and decodes the pulse's length if that is above OFFSET. -/
theorem InPulse.lowTick {k n : Nat} {d : U16} {b : Block} (h : InPulse k n d b) (c : Config) (hc : c.legal)
    (smp : Mask) (hlow : sampleBit smp k = false) :
    (ppmTick c smp b).acc[k]? = some 0#32 ∧
      ∃ d', (ppmTick c smp b).dw[k]? = some d' ∧
        if c.offset < min n Config.accMax then d'.toNat = min (min n Config.accMax - c.offset) c.dwMax
        else d' = d := by
  obtain ⟨-, ⟨a, ha, haval⟩, hdw⟩ := h
  obtain ⟨hacc', hdw'⟩ := ppmTick_channel c smp b k a d ha hdw
  rw [hlow] at hacc' hdw'
  refine ⟨hacc', _, hdw', ?_⟩
  rw [← haval]
  split
  next hoff => exact nextDw_low_plausible c hc a d hoff
  next hoff => exact nextDw_low_noise c a d (Nat.not_lt.mp hoff)

/-! ## From the rising edge to the falling edge (R99, R101) -/

theorem ordinary_concat_tickppm (es : List Event) (smp : Mask) (hes : ∀ e ∈ es, isOrdinary e = true) :
    ∀ e ∈ es ++ [eventOf (.tickppm smp)], isOrdinary e = true :=
  List.forall_mem_append.mpr ⟨hes, List.forall_mem_singleton.mpr (isOrdinary_eventOf (.tickppm smp) rfl)⟩

/-- Settles O53: the events make a pulse as long as their PPM ticks are many, and the last tick ends it. -/
theorem pulseDecoding : Obligations.PulseDecoding := by
  rintro s es k smp d ⟨hc, -⟩ harmed hacc hdw hes hhigh hlow
  obtain ⟨t, hrun, -, -, hblock⟩ := runEvents_ordinary s hc _ (ordinary_concat_tickppm es smp hes)
  have hstart : InPulse k 0 d s.block := ⟨harmed, ⟨0#32, hacc, rfl⟩, hdw⟩
  have hpulse := hstart.afterEvents s.cfg es hes hhigh
  rw [Nat.zero_add] at hpulse
  rw [blockAfterEvents_append, blockAfterEvents_cons, blockAfterEvents_nil,
    blockAfterEvent_op _ _ _ _ _ (decodeEvent_eventOf (.tickppm smp) rfl),
    blockAfter_tickppm_armed _ smp _ hpulse.armed] at hblock
  obtain ⟨hacc', d', hdw', hval⟩ := hpulse.lowTick s.cfg hc smp hlow
  exact ⟨t, d', hrun, by rw [hblock, hacc'], by rw [hblock, hdw'], hval⟩

/-- A channel with an accumulator is one of the configuration, and has a decoded width (R32). -/
theorem Block.wf.dw_of_acc {c : Config} {b : Block} (hb : b.wf c) {k : Nat} {a : U32} (ha : b.acc[k]? = some a) :
    k < c.nPpm ∧ ∃ d, b.dw[k]? = some d := by
  obtain ⟨-, ⟨-, -, hacclen, hdwlen⟩, -⟩ := hb
  have hk : k < b.acc.length := (List.getElem?_eq_some_iff.mp ha).1
  exact ⟨hacclen ▸ hk, _, List.getElem?_eq_getElem (by omega)⟩

/-- Settles O55: a pulse of at most OFFSET ticks is the second case of `pulseDecoding`. -/
theorem noiseRejected : Obligations.NoiseRejected := by
  intro s es k smp hwf harmed hacc hes hhigh hlow hticks
  obtain ⟨-, d, hdw⟩ := hwf.2.dw_of_acc hacc
  obtain ⟨t, d', hrun, -, hdw', hval⟩ := pulseDecoding s es k smp d hwf harmed hacc hdw hes hhigh hlow
  rw [if_neg (by omega)] at hval
  exact ⟨t, hrun, by rw [hdw', hdw, hval]⟩

/-! ## The GETW after a pulse (R100, R102) -/

/-- An operation after a run of ordinary events answers from the block that the run leaves. -/
theorem runEvents_concat_response (s t : State) (hc : s.cfg.legal) (es : List Event)
    (hes : ∀ e ∈ es, isOrdinary e = true) (e : Event) (i : Instr) (hd : decodeEvent e = .op i)
    (hrun : runEvents s es = .next t) :
    ∃ u, runEvents s (es ++ [e]) = .next u ∧ u.response = responseAfter s.cfg i t.block := by
  obtain ⟨-, hblock⟩ := runEvents_eq s t hc es hes hrun
  rw [hblock]
  clear hrun hblock
  induction es generalizing s with
  | nil =>
    have hstep := (step_eq_exec (scheduled s [e]) e [] i hc rfl hd).trans (exec_eq_stateAfter i _)
    exact ⟨_, by rw [List.nil_append, runEvents_cons s _ e [] hstep, runEvents_nil], rfl⟩
  | cons x xs ih =>
    obtain ⟨hreal, hreset⟩ := (isOrdinary_iff x).mp (hes x List.mem_cons_self)
    obtain ⟨v, hstep, hcfg, -, hblock⟩ :=
      step_completes (scheduled s (x :: (xs ++ [e]))) hc x (xs ++ [e]) rfl hreal
    obtain ⟨u, hrun, hresp⟩ := ih v (by rwa [hcfg]) fun y hy => hes y (List.mem_cons_of_mem x hy)
    refine ⟨u, by rw [List.cons_append, runEvents_cons s v x _ hstep, hrun], ?_⟩
    rw [hresp, hcfg, hblock, blockAfterEvent_ordinary _ _ 0#16 x _ hreset]
    rfl

/-- Settles O54: the pulse decodes to k by `pulseDecoding`, and GETW answers it. -/
theorem pulseRoundTrip : Obligations.PulseRoundTrip := by
  intro s es ch k smp hwf harmed hacc hes hhigh hlow hticks hpos hmax hsat
  obtain ⟨hc, hb⟩ := id hwf
  obtain ⟨hch, d, hdw⟩ := hb.dw_of_acc hacc
  obtain ⟨t, d', hrun, -, hdw', hval⟩ := pulseDecoding s es ch smp d hwf harmed hacc hdw hes hhigh hlow
  rw [if_pos (by omega)] at hval
  have hk : d'.toNat = k := by omega
  have hgetw : (Instr.getw ch).wf = true := by
    obtain ⟨-, ⟨-, hn⟩, -⟩ := hc
    exact decide_eq_true (by omega)
  obtain ⟨u, hrun', hresp⟩ := runEvents_concat_response s t hc _ (ordinary_concat_tickppm es smp hes)
    (eventOf (.getw ch)) (.getw ch) (decodeEvent_eventOf _ hgetw) hrun
  rw [List.append_assoc] at hrun'
  refine ⟨u, hrun', ?_⟩
  rw [hresp, responseAfter_getw_valid s.cfg ch t.block d' hch hdw', responseWord_ok, ← hk, BitVec.ofNat_toNat]

theorem ppmSample_eventOf_tickppm (smp : Mask) : ppmSample (eventOf (.tickppm smp)) = some smp :=
  (ppmSample_eq_some_iff _ smp).mpr (decodeEvent_eventOf (.tickppm smp) rfl)

theorem ppmTicks_map_tickppm (smps : List Mask) :
    ppmTicks (smps.map fun x => eventOf (.tickppm x)) = smps.length := by
  simp [ppmTicks, List.countP_map, Function.comp_def, ppmSample_eventOf_tickppm]

/-- Settles O56: 130 = OFFSET + 30 ticks make a pulse that stands for 30. -/
theorem scenarioPulse130 : Obligations.ScenarioPulse130 := by
  intro s smps low hwf hoff hmax harmed hacc hlen hhigh hlow
  refine pulseRoundTrip s _ 3 30 low hwf harmed hacc (List.forall_mem_map.mpr fun x _ => ?_)
    (List.forall_mem_map.mpr fun x hx smp hsmp => ?_) hlow ?_ (by omega) hmax (by omega)
  · exact isOrdinary_eventOf (.tickppm x) rfl
  · rw [ppmSample_eventOf_tickppm, Option.some.injEq] at hsmp
    exact hsmp ▸ hhigh x hx
  · rw [ppmTicks_map_tickppm, hlen, hoff]

end Sys2Proof.Machine
end

section
/-! PROOFS. O22, O43 and O58, of the family 42_control.md. First INIT (R108, R110); then the three things a step can
do to CTRL, and how long an engine stays armed (R106, R109); then the decoded widths before INIT (R107). -/

namespace Sys2Proof.Machine

/-! ## INIT (R108, R110) -/

/-- Settles O22: INIT writes 0b11 to CTRL whatever it held, and its response word is 0 for (OK, 0). -/
theorem initArmsBothEngines : Obligations.InitArmsBothEngines := by
  intro s
  rw [exec_init, armBoth_eq]
  exact ⟨_, rfl, rfl, pwmArmed_of_ctrl _ rfl, ppmArmed_of_ctrl _ rfl, rfl⟩

/-! ## What an event can do to CTRL (R106, R109) -/

/-- An event keeps CTRL, or it is INIT and sets both armed bits, or it is Reset and clears both. -/
theorem blockAfterEvent_ctrl_cases (c : Config) (draw : Mask) (e : Event) (b : Block) :
    (blockAfterEvent c draw e b).ctrl = b.ctrl ∨
      (isInit e = true ∧ (blockAfterEvent c draw e b).ctrl = 3#2) ∨
      (isReset e = true ∧ (blockAfterEvent c draw e b).ctrl = 0#2) := by
  cases hd : decodeEvent e with
  | op i =>
    rw [blockAfterEvent_op c draw e i b hd]
    by_cases hi : i.mnemonic = .init
    · cases i with
      | init => exact .inr (.inl ⟨by simp [isInit, hd], by rw [blockAfter_init]⟩)
      | _ => nomatch hi
    · exact .inl (blockAfter_ctrl c i b hi)
  | illegalCommand why => exact .inl (by rw [blockAfterEvent_illegalCommand c draw e b why hd])
  | malformedStrobe why => exact .inl (by simp only [blockAfterEvent, hd])
  | reset => exact .inr (.inr ⟨by simp [isReset, hd], by rw [blockAfterEvent_reset c draw e b hd, resetBlock_ctrl]⟩)

/-- The same of a step with `e` next. -/
theorem step_ctrl_cases (s t : State) (e : Event) (rest : List Event) (hs : s.schedule = e :: rest)
    (h : step s = .next t) :
    t.block.ctrl = s.block.ctrl ∨ (isInit e = true ∧ t.block.ctrl = 3#2) ∨
      (isReset e = true ∧ t.block.ctrl = 0#2) := by
  obtain ⟨-, -, ⟨hnil, -⟩ | ⟨e', rest', hs', -, -, hblock⟩⟩ := step_cases s t h
  · nomatch hs.symm.trans hnil
  · obtain ⟨rfl, rfl⟩ := List.cons.inj (hs.symm.trans hs')
    rw [hblock]
    exact blockAfterEvent_ctrl_cases s.cfg _ e s.block

theorem pwmArmed_congr {b b' : Block} (h : b'.ctrl = b.ctrl) : b'.pwmArmed = b.pwmArmed := by
  rw [Block.pwmArmed, h, Block.pwmArmed]

theorem ppmArmed_congr {b b' : Block} (h : b'.ctrl = b.ctrl) : b'.ppmArmed = b.ppmArmed := by
  rw [Block.ppmArmed, h, Block.ppmArmed]

theorem unarmed_of_ctrl (b : Block) (h : b.ctrl = 0#2) : b.pwmArmed = false ∧ b.ppmArmed = false := by
  simp [Block.pwmArmed, Block.ppmArmed, h]

/-- Settles O43: of the three things a step can do to CTRL, only INIT sets an armed bit and only Reset clears one. -/
theorem armedFromInitToReset : Obligations.ArmedFromInitToReset := by
  intro s t e rest hs h
  obtain hsame | ⟨hinit, hctrl⟩ | ⟨hreset, hctrl⟩ := step_ctrl_cases s t e rest hs h
  · rw [pwmArmed_congr hsame, ppmArmed_congr hsame]
    exact ⟨fun _ => ⟨id, id⟩, fun _ => ⟨id, id⟩⟩
  · exact ⟨fun _ => ⟨fun _ => pwmArmed_of_ctrl _ hctrl, fun _ => ppmArmed_of_ctrl _ hctrl⟩,
      fun hne => (nomatch hinit.symm.trans hne)⟩
  · obtain ⟨hpwm, hppm⟩ := unarmed_of_ctrl _ hctrl
    exact ⟨fun hne => (nomatch hreset.symm.trans hne), fun _ => ⟨fun _ => hpwm, fun _ => hppm⟩⟩

/-! ## The decoded widths before INIT (R96, R107) -/

/-- Only INIT arms the PPM engine, whatever event comes. -/
theorem blockAfterEvent_ppmUnarmed (c : Config) (draw : Mask) (e : Event) (b : Block) (hinit : isInit e = false)
    (h : b.ppmArmed = false) : (blockAfterEvent c draw e b).ppmArmed = false := by
  obtain hsame | ⟨hinit', -⟩ | ⟨-, hctrl⟩ := blockAfterEvent_ctrl_cases c draw e b
  · rwa [ppmArmed_congr hsame]
  · nomatch hinit'.symm.trans hinit
  · exact (unarmed_of_ctrl _ hctrl).2

/-- While the PPM engine is unarmed no ordinary event writes DW, PPM ticks included (R96). -/
theorem blockAfterEvent_dw_unarmed (c : Config) (draw : Mask) (e : Event) (b : Block) (he : isOrdinary e = true)
    (h : b.ppmArmed = false) : (blockAfterEvent c draw e b).dw = b.dw := by
  cases hsmp : ppmSample e with
  | none => exact (blockAfterEvent_acc_dw c draw e b he hsmp).2
  | some smp =>
    rw [blockAfterEvent_op c draw e _ b ((ppmSample_eq_some_iff e smp).mp hsmp), blockAfter_tickppm_unarmed c smp b h]

theorem blockAfterEvents_dw_unarmed (c : Config) (es : List Event) (b : Block) (h : b.ppmArmed = false)
    (hes : ∀ e ∈ es, isOrdinary e = true ∧ isInit e = false) : (blockAfterEvents c es b).dw = b.dw := by
  induction es generalizing b with
  | nil => rfl
  | cons e es ih =>
    obtain ⟨he, hinit⟩ := hes e List.mem_cons_self
    rw [blockAfterEvents_cons, ih _ (blockAfterEvent_ppmUnarmed c 0#16 e b hinit h) fun x hx =>
      hes x (List.mem_cons_of_mem e hx)]
    exact blockAfterEvent_dw_unarmed c 0#16 e b he h

/-- A valid channel fits the CH field (R6, R65). -/
theorem wf_getw_of_valid (c : Config) (hc : c.legal) (ch : Nat) (hch : ch < c.nPpm) :
    (Instr.getw ch).wf = true := by
  obtain ⟨-, ⟨-, hn⟩, -⟩ := hc
  exact decide_eq_true (by omega)

/-- Settles O58: Reset clears DW and leaves the PPM engine unarmed, so DW[ch] is still 0 when GETW reads it. -/
theorem getwBeforeInitAnswersZero : Obligations.GetwBeforeInitAnswersZero := by
  intro c es ch hc hch hes
  have hord : ∀ e ∈ es, isOrdinary e = true := fun e he => (hes e he).1
  obtain ⟨s, hrun, -, -, hblock⟩ := runEvents_ordinary (State.resetWith c) hc es hord
  obtain ⟨t, hrun', hresp⟩ := runEvents_concat_response (State.resetWith c) s hc es hord (eventOf (.getw ch)) _
    (decodeEvent_eventOf _ (wf_getw_of_valid c hc ch hch)) hrun
  have hunarmed : (State.resetWith c).block.ppmArmed = false := (unarmed_of_ctrl _ rfl).2
  have hdw : s.block.dw[ch]? = some 0#16 := by
    rw [hblock, blockAfterEvents_dw_unarmed _ es _ hunarmed hes]
    exact List.getElem?_replicate_of_lt hch
  refine ⟨t, hrun', ?_⟩
  calc t.response
    _ = responseAfter c (.getw ch) s.block := hresp
    _ = some (responseWord .ok 0#16) := responseAfter_getw_valid c ch s.block _ hch hdw
    _ = some 0x00000000#32 := rfl

end Sys2Proof.Machine
end

section
/-! PROOFS. O9 and O16, of the family 60_exceptions.md. First the host words that are no command and what a step
answers to them (R60, R115); then that no step reads the ports, and that an error status leaves the block (R116). -/

namespace Sys2Proof

/-! ## Host words that are no command (R60, R61) -/

/-- The illegal words of R115: an accepted word has its operation's OP and zeros where R53 and R62 ask for them. -/
theorem decodeHost_rejected_of_illegal (w : Word)
    (h : (opField w ≠ 1#4 ∧ opField w ≠ 2#4 ∧ opField w ≠ 3#4) ∨ rsvField w ≠ 0#4 ∨
      (opField w = 2#4 ∧ valField w ≠ 0#16) ∨ (opField w = 3#4 ∧ (chField w ≠ 0#8 ∨ valField w ≠ 0#16))) :
    ∃ why, decodeHost w = .rejected why := by
  cases hd : decodeHost w with
  | rejected why => exact ⟨why, rfl⟩
  | op i =>
    obtain ⟨hrsv, ⟨hop, -⟩ | ⟨hop, hval, -⟩ | ⟨hop, hch, hval, -⟩⟩ := decodeHost_cases w i hd
    · simp [hrsv, hop] at h
    · simp [hrsv, hop, hval] at h
    · simp [hrsv, hop, hch, hval] at h

end Sys2Proof

namespace Sys2Proof.Machine

/-! ## An illegal command (R115) -/

/-- An illegal command's whole next state: its event taken, its answer on the response port, nothing else. -/
theorem illegalCommand_eq (s : State) (e : Event) (rest : List Event) (hs : s.schedule = e :: rest) :
    illegalCommand s = { s with schedule := rest, response := some 0x20000000#32, drive := none } := by
  rw [illegalCommand, raise, complete, hs]
  rfl

/-- A host word that the decoder rejects runs as an illegal command, whatever the reason. -/
theorem step_host_rejected (s : State) (hc : s.cfg.legal) (w : Word) (rest : List Event) (why : DecodeReject)
    (hs : s.schedule = .host w :: rest) (hd : decodeHost w = .rejected why) :
    step s = .next { s with schedule := rest, response := some 0x20000000#32, drive := none } := by
  rw [step_cons s hc _ rest hs, decodeEvent, hd, ← illegalCommand_eq s _ rest hs]
  rfl

/-- Settles O9: the decoder rejects each of these words, and a rejected word runs as an illegal command. -/
theorem illegalCommandAnswer : Obligations.IllegalCommandAnswer := by
  intro s w rest hc hs hillegal
  obtain ⟨why, hd⟩ := decodeHost_rejected_of_illegal w hillegal
  exact step_host_rejected s hc w rest why hs hd

/-! ## The ports are not read (R25, R116) -/

/-- Every event ends in `complete`, which overwrites both ports: no request depends on what they showed. -/
theorem runRequest_ports (q : Request) (s : State) (r : Option Word) (d : Option Drive) :
    runRequest q { s with response := r, drive := d } = runRequest q s := by
  cases q with
  | op i =>
    rw [runRequest, runRequest, exec_eq_stateAfter, exec_eq_stateAfter]
    rfl
  | illegalCommand why => rfl
  | malformedStrobe why => rfl
  | reset => rfl

theorem step_ports (s : State) (r : Option Word) (d : Option Drive) :
    step { s with response := r, drive := d } = step s := by
  by_cases hc : s.cfg.legal
  · by_cases hs : s.schedule = []
    · rw [step_nil s hc hs, step_nil { s with response := r, drive := d } hc hs]
      rfl
    · obtain ⟨e, rest, hcons⟩ := List.exists_cons_of_ne_nil hs
      rw [step_cons s hc e rest hcons, step_cons { s with response := r, drive := d } hc e rest hcons, runRequest_ports]
  · rw [step_illegal s hc, step_illegal { s with response := r, drive := d } hc]

/-! ## An error status (R73, R98, R116) -/

/-- OK has the status code 0 (R59). -/
theorem ne_responseWord_ok (r : Word) (data : U16) (h : r.extractLsb' 28 4 ≠ 0#4) : responseWord .ok data ≠ r := by
  rintro rfl
  obtain ⟨hstatus, -, -⟩ := responseWord_fields .ok data
  exact h hstatus

/-- An operation that answers an error status is a SETW or GETW of an invalid channel: it leaves the block and drives
nothing. -/
theorem blockAfter_driveAfter_of_error (c : Config) (i : Instr) (b : Block) (r : Word)
    (hr : responseAfter c i b = some r) (herr : r.extractLsb' 28 4 ≠ 0#4) :
    blockAfter c i b = b ∧ driveAfter c i b = none := by
  cases i with
  | setw ch val =>
    by_cases hch : ch < c.nPwm
    · rw [responseAfter, if_pos hch] at hr
      exact absurd (Option.some.inj hr) (ne_responseWord_ok r _ herr)
    · exact ⟨if_neg hch, rfl⟩
  | getw ch => exact ⟨rfl, rfl⟩
  | init => exact absurd (Option.some.inj hr) (ne_responseWord_ok r _ herr)
  | tickpwm => nomatch hr
  | tickppm smp => nomatch hr

/-- The whole next state of an operation that answers an error status. -/
theorem stateAfter_of_error (i : Instr) (s : State) (e : Event) (rest : List Event) (r : Word)
    (hs : s.schedule = e :: rest) (hr : (stateAfter i s).response = some r) (herr : r.extractLsb' 28 4 ≠ 0#4) :
    stateAfter i s = { s with schedule := rest, response := some r, drive := none } := by
  rw [stateAfter_response] at hr
  obtain ⟨hblock, hdrive⟩ := blockAfter_driveAfter_of_error s.cfg i s.block r hr herr
  rw [stateAfter, complete, hblock, hdrive, hr, hs, List.tail_cons]

/-- Settles O16: a step overwrites the ports unread; an error status is the answer of an operation on an invalid
channel or of an illegal command, and both leave the block. -/
theorem noErrorIsRecorded : Obligations.NoErrorIsRecorded := by
  refine ⟨step_ports, fun s t w r rest hs hstep hr herr => ?_⟩
  cases hd : decodeHost w with
  | op i =>
    obtain rfl := step_eq_stateAfter s t _ rest i hs (decodeEvent_onPort .host w i hd) hstep
    exact stateAfter_of_error i s _ rest r hs hr herr
  | rejected why =>
    obtain ⟨hc, -⟩ := step_cases s t hstep
    rw [step_host_rejected s hc w rest why hs hd] at hstep
    cases hstep
    cases hr
    rfl

end Sys2Proof.Machine
end

section
/-! PROOFS. O52 and O14, of the family 70_reset_and_hazards.md. First the wait on an empty schedule (R129); then two
blocks that differ in CW[ch] alone, which every event but a boundary tick keeps so, and the SETW that makes them one. -/

namespace Sys2Proof.Machine

/-! ## The wait for an event (R129) -/

/-- Settles O14: the step is `idle`, which takes nothing from a schedule that holds nothing. -/
theorem emptyScheduleWaits : Obligations.EmptyScheduleWaits := by
  intro s hc hs
  rw [step_nil s hc hs, idle, silent, complete, hs, List.tail_nil]

/-! ## Events at blocks that differ in one commanded width (R43, R136) -/

theorem writeCw_comm (b : Block) {k ch : Nat} (h : k ≠ ch) (v w : U16) :
    (b.writeCw k v).writeCw ch w = (b.writeCw ch w).writeCw k v := by
  simp only [Block.writeCw, List.set_comm v w h]

/-- A SETW to channel `ch` overwrites what was written there, one to another channel leaves it. -/
theorem blockAfter_setw_writeCw (c : Config) (k : Nat) (val : Int) (b : Block) (ch : Nat) (v : U16) :
    ∃ w, blockAfter c (.setw k val) (b.writeCw ch v) = (blockAfter c (.setw k val) b).writeCw ch w := by
  by_cases hk : k < c.nPwm
  · simp only [blockAfter_setw_valid c k val _ hk]
    by_cases hch : k = ch
    · subst hch
      exact ⟨clampw c val, by simp only [writeCw_writeCw]⟩
    · exact ⟨v, (writeCw_comm b hch _ _).symm⟩
  · exact ⟨v, by simp only [blockAfter_setw_invalid c k val _ hk]⟩

/-- Only a boundary tick reads CW, so any other operation leaves no difference but that in CW[ch], and drives the
same. -/
theorem blockAfter_driveAfter_writeCw (c : Config) (i : Instr) (b : Block) (ch : Nat) (v : U16)
    (hi : ¬(i = .tickpwm ∧ b.pwmArmed = true ∧ b.fc = 0#16)) :
    (∃ w, blockAfter c i (b.writeCw ch v) = (blockAfter c i b).writeCw ch w) ∧
      driveAfter c i (b.writeCw ch v) = driveAfter c i b := by
  cases i with
  | setw k val => exact ⟨blockAfter_setw_writeCw c k val b ch v, rfl⟩
  | getw k => exact ⟨⟨v, rfl⟩, rfl⟩
  | init => exact ⟨⟨v, rfl⟩, rfl⟩
  | tickpwm =>
    by_cases hfc : b.fc = 0#16
    · have hunarmed : b.pwmArmed = false := by simpa [hfc] using hi
      refine ⟨⟨v, ?_⟩, by simp [driveAfter, hunarmed]⟩
      rw [blockAfter_tickpwm_unarmed c (b.writeCw ch v) hunarmed, blockAfter_tickpwm_unarmed c b hunarmed]
    · obtain ⟨hblock, hdrive⟩ := blockAfter_writeCw c b .tickpwm (.inl ⟨rfl, hfc⟩) ch v
      exact ⟨⟨v, hblock⟩, hdrive⟩
  | tickppm smp =>
    obtain ⟨hblock, hdrive⟩ := blockAfter_writeCw c b (.tickppm smp) (.inr ⟨smp, rfl⟩) ch v
    exact ⟨⟨v, hblock⟩, hdrive⟩

theorem blockAfterEvent_driveAfterEvent_writeCw (s : State) (e : Event) (es : List Event) (ch : Nat) (v : U16)
    (he : isOrdinary e = true) (hnb : boundaryNext (scheduled s (e :: es)) = false) :
    (∃ w, blockAfterEvent s.cfg 0#16 e (s.block.writeCw ch v) =
        (blockAfterEvent s.cfg 0#16 e s.block).writeCw ch w) ∧
      driveAfterEvent s.cfg e (s.block.writeCw ch v) = driveAfterEvent s.cfg e s.block := by
  obtain ⟨i, hd⟩ | ⟨why, hd⟩ := ordinary_cases e he
  · simp only [blockAfterEvent_op _ 0#16 e i _ hd, driveAfterEvent_op _ e i _ hd]
    refine blockAfter_driveAfter_writeCw s.cfg i s.block ch v ?_
    rintro ⟨rfl, hstart⟩
    simp [(boundaryNext_iff _ e es (scheduled_schedule s _)).mpr ⟨hd, hstart⟩] at hnb
  · simp only [blockAfterEvent_illegalCommand _ 0#16 e _ why hd, driveAfterEvent_illegalCommand _ e _ why hd]
    exact ⟨⟨v, rfl⟩, trivial⟩

/-! ## A run with no boundary tick (R136) -/

/-- Where no boundary tick is run, the first event is none, and none is run after it. -/
theorem no_boundary_cons (s : State) (hc : s.cfg.legal) (e : Event) (es : List Event) (he : isOrdinary e = true)
    (h : occursWithin boundaryNext (e :: es).length (scheduled s (e :: es)) = false) :
    boundaryNext (scheduled s (e :: es)) = false ∧
      ∃ t : State, t.cfg = s.cfg ∧ t.block = blockAfterEvent s.cfg 0#16 e s.block ∧
        occursWithin boundaryNext es.length (scheduled t es) = false := by
  obtain ⟨hreal, hreset⟩ := (isOrdinary_iff e).mp he
  obtain ⟨t, hstep, hcfg, hsched, hblock⟩ := step_completes (scheduled s (e :: es)) hc e es rfl hreal
  have ht : scheduled t es = t := by rw [← hsched, scheduled_self]
  rw [List.length_cons, occursWithin_succ _ _ _ t hstep, Bool.or_eq_false_iff, ← ht] at h
  obtain ⟨hfirst, hrest⟩ := h
  exact ⟨hfirst, t, hcfg, hblock.trans (blockAfterEvent_ordinary _ _ _ e _ hreset), hrest⟩

/-- Events among which no boundary tick is run leave no difference but that in CW[ch], and drive the same. -/
theorem afterEvents_writeCw_of_no_boundary (s : State) (hc : s.cfg.legal) (es : List Event) (ch : Nat) (v : U16)
    (hes : ∀ e ∈ es, isOrdinary e = true)
    (hnb : occursWithin boundaryNext es.length (scheduled s es) = false) :
    (∃ w, blockAfterEvents s.cfg es (s.block.writeCw ch v) = (blockAfterEvents s.cfg es s.block).writeCw ch w) ∧
      drivesAfterEvents s.cfg es (s.block.writeCw ch v) = drivesAfterEvents s.cfg es s.block := by
  induction es generalizing s v with
  | nil => exact ⟨⟨v, rfl⟩, rfl⟩
  | cons e es ih =>
    have he := hes e List.mem_cons_self
    obtain ⟨hfirst, t, hcfg, hblock, hrest⟩ := no_boundary_cons s hc e es he hnb
    obtain ⟨⟨w, hw⟩, hdrive⟩ := blockAfterEvent_driveAfterEvent_writeCw s e es ch v he hfirst
    have hih := ih t (by rwa [hcfg]) w (fun x hx => hes x (List.mem_cons_of_mem e hx)) hrest
    rw [hcfg, hblock] at hih
    simp only [blockAfterEvents_cons, drivesAfterEvents_cons, hw, hdrive]
    obtain ⟨hblocks, hdrives⟩ := hih
    exact ⟨hblocks, by rw [hdrives]⟩

/-! ## The second SETW (R136) -/

/-- A SETW event drives nothing, wherever it stands among ordinary events. -/
theorem drivesAfterEvents_concat_setw (c : Config) (es : List Event) (b : Block) (ch : Nat) (val : Int)
    (hwf : (Instr.setw ch val).wf = true) :
    drivesAfterEvents c (es ++ [eventOf (.setw ch val)]) b = drivesAfterEvents c es b := by
  rw [drivesAfterEvents_append, drivesAfterEvents_cons, driveAfterEvent_op c _ _ _ (decodeEvent_eventOf _ hwf)]
  exact List.append_nil _

theorem drivesAfterEvents_setw_cons (c : Config) (es : List Event) (b : Block) (ch : Nat) (val : Int)
    (hwf : (Instr.setw ch val).wf = true) :
    drivesAfterEvents c (eventOf (.setw ch val) :: es) b =
      drivesAfterEvents c es (blockAfter c (.setw ch val) b) := by
  have hd := decodeEvent_eventOf _ hwf
  rw [drivesAfterEvents_cons, driveAfterEvent_op c _ _ _ hd, blockAfterEvent_op c _ _ _ _ hd]
  rfl

/-- The first SETW, the events and the second SETW leave what the events and the second SETW leave, and drive the
same. An invalid channel makes both SETWs change nothing. -/
theorem afterEvents_setw_setw (s : State) (hc : s.cfg.legal) (es : List Event) (ch : Nat) (v₁ v₂ : Int)
    (hes : ∀ e ∈ es, isOrdinary e = true)
    (hnb : occursWithin boundaryNext es.length (scheduled s es) = false) :
    blockAfter s.cfg (.setw ch v₂) (blockAfterEvents s.cfg es (blockAfter s.cfg (.setw ch v₁) s.block)) =
        blockAfter s.cfg (.setw ch v₂) (blockAfterEvents s.cfg es s.block) ∧
      drivesAfterEvents s.cfg es (blockAfter s.cfg (.setw ch v₁) s.block) =
        drivesAfterEvents s.cfg es s.block := by
  by_cases hch : ch < s.cfg.nPwm
  · obtain ⟨⟨w, hw⟩, hdrives⟩ :=
      afterEvents_writeCw_of_no_boundary s hc es ch (clampw s.cfg v₁) hes hnb
    simp only [blockAfter_setw_valid s.cfg ch _ _ hch]
    exact ⟨by rw [hw, writeCw_writeCw], hdrives⟩
  · simp only [blockAfter_setw_invalid s.cfg ch _ _ hch, and_self]

/-- Settles O52: the first SETW makes a difference in CW[ch] alone, no event up to the second one reads it, and the
second one overwrites it. -/
theorem setwsWithinAFrameCoalesce : Obligations.SetwsWithinAFrameCoalesce := by
  rintro s es ch v₁ v₂ ⟨hc, -⟩ hwf₁ hwf₂ hes hnb
  obtain ⟨hblock, hdrives⟩ := afterEvents_setw_setw s hc es ch v₁ v₂ hes hnb
  have hshort : ∀ e ∈ es ++ [eventOf (.setw ch v₂)], isOrdinary e = true :=
    List.forall_mem_append.mpr ⟨hes, List.forall_mem_singleton.mpr (isOrdinary_eventOf _ hwf₂)⟩
  have hlong : ∀ e ∈ eventOf (.setw ch v₁) :: es ++ [eventOf (.setw ch v₂)], isOrdinary e = true :=
    List.forall_mem_cons.mpr ⟨isOrdinary_eventOf _ hwf₁, hshort⟩
  obtain ⟨t, ht, -, -, htblock⟩ := runEvents_ordinary s hc _ hlong
  obtain ⟨u, hu, -, -, hublock⟩ := runEvents_ordinary s hc _ hshort
  refine ⟨t, u, ht, hu, ?_, ?_⟩
  · rw [htblock, hublock, blockAfterEvents_append, blockAfterEvents_append]
    simpa only [blockAfterEvents_cons, blockAfterEvents_nil,
      blockAfterEvent_op _ _ _ _ _ (decodeEvent_eventOf _ hwf₁),
      blockAfterEvent_op _ _ _ _ _ (decodeEvent_eventOf _ hwf₂)] using hblock
  · rw [drivesOf_ordinary s hc _ hlong, drivesOf_ordinary s hc _ hshort,
      drivesAfterEvents_concat_setw _ _ _ _ _ hwf₂, drivesAfterEvents_concat_setw _ _ _ _ _ hwf₂,
      drivesAfterEvents_setw_cons _ _ _ _ _ hwf₁, hdrives]

end Sys2Proof.Machine
end

section
/-! PROOFS. O27, of the family other. The non-normative switch LITERAL_DECREMENT (D4) moves the level test past the
decrement, so a channel is driven by the level that its next period has with the switch off. -/

namespace Sys2Proof.Machine

/-- With LITERAL_DECREMENT on, the level is the normative level of the period after the decrement (D4). -/
theorem channelHigh_literal_eq_normative_nextPeriod (c : Config) (hc : c.literalDecrement = true) (x : U16) :
    channelHigh c x = channelHigh { c with literalDecrement := false } (nextPeriod x) := by
  simp only [channelHigh, hc, if_true, Bool.false_eq_true, if_false]

/-- With LITERAL_DECREMENT on, the line is high exactly when the period is above 1 at the start of the tick (D4). -/
theorem channelHigh_literal (c : Config) (hc : c.literalDecrement = true) (x : U16) :
    channelHigh c x = decide (1 < x.toNat) := by
  rw [channelHigh_literal_eq_normative_nextPeriod c hc, channelHigh_normative _ rfl, nextPeriod_toNat]
  exact decide_eq_decide.mpr Nat.sub_pos_iff_lt

/-- Settles O27: an armed tick with FC ≠ 0 is `pwmCount` with the switch on too, and the level it drives is that of the
period after the decrement. -/
theorem literalDecrementTick : Obligations.LiteralDecrementTick := by
  rintro s ⟨⟨⟨-, hn⟩, -⟩, -, ⟨-, hcpl, -⟩, -⟩ hlit harmed hfc
  refine ⟨_, exec_tickpwm_armed s harmed, ?_⟩
  rw [driveOut_block, pwmTick_count s.cfg s.block hfc]
  refine ⟨toNat_pred _ hfc, fun k p hp => ⟨⟨nextPeriod p, ?_, nextPeriod_toNat p⟩, ?_⟩⟩
  · rw [pwmCount_cp_get, hp, Option.map_some]
  · have hk : k < s.block.cp.length := (List.getElem?_eq_some_iff.mp hp).1
    rw [pwmCount_outBit _ _ k (by omega), hp, Option.map_some, Option.getD_some, channelHigh_literal s.cfg hlit]

end Sys2Proof.Machine
end
